-- ==== Sys2Proof/Word.lean ====
section
/-! DEFINITION. The word types of the round engine and its two smallest name sets: the widths an engine
is built for and the two directions. -/

namespace Sys2Proof

/-- A 16-bit unsigned word, "the atomic unit of state and table domain/range" (00_scope.md glossary, R6). -/
abbrev Word := BitVec 16

/-- A 32-bit word of the register port (R28, R34). -/
abbrev BusWord := BitVec 32

/-- A 6-bit register word address (R28). -/
abbrev RegAddr := BitVec 6

/-- One host transaction in format BUS: we in bit 38, addr in 37..32, wdata in 31..0 (R45). -/
abbrev Transaction := BitVec 39

/-- The direction of a command and the bank of a table: forward (D = 0, bank 0, MATF) or
inverse (D = 1, bank 1, MATI) (R44, R10). -/
inductive Dir where
  | forward
  | inverse
  deriving DecidableEq, Repr, Inhabited

/-- The state widths an engine can be built for (R3). -/
inductive Width where
  | w8
  | w12
  | w16
  deriving DecidableEq, Repr, Inhabited

end Sys2Proof
end

