-- ==== Sys2Proof/Config.lean ====
section
/-! DEFINITION. The build parameters of one engine (00_scope.md R6) and the model's free values. -/

namespace Sys2Proof

/-- The build parameters of R6. A matrix is its list of rows, row 0 first; bit i of a row is column i
(R21). A model takes them as an argument: State carries one `Config`, and no step changes it (R12). -/
structure Config where
  /-- N, as one of the three legal widths (R3). -/
  width : Width
  /-- MATF, the forward diffusion matrix (R12). -/
  matF : List Word
  /-- MATI, the inverse diffusion matrix (R12). -/
  matI : List Word
  /-- LAT_SUB, clock cycles of one confusion step, timing only (R122). -/
  latSub : Nat
  /-- LAT_MIX, clock cycles of one diffusion step, timing only (R122). -/
  latMix : Nat
  deriving DecidableEq, Repr, Inhabited

/-- The number N of state words, slots and matrix rows (R6). -/
def Config.n (c : Config) : Nat :=
  match c.width with
  | .w8 => 8
  | .w12 => 12
  | .w16 => 16

/-- The ranges R6 gives the build parameters: N rows of N bits in each matrix, latencies at least 1.
Non-singularity is not among them: R7 leaves it to the claims that need it. -/
def Config.wf (c : Config) : Bool :=
  c.matF.length == c.n && c.matI.length == c.n
    && c.matF.all (fun r => r.toNat < 2 ^ c.n) && c.matI.all (fun r => r.toNat < 2 ^ c.n)
    && decide (1 ≤ c.latSub) && decide (1 ≤ c.latMix)

/-- FREE VALUE: the 16-bit word a draw returns (U1, U2 of 93_implementation_defined.md): a lookup of a
table entry never written, and a read of ST_j while Busy. Applied to the draw counter of State, so that
every draw is fresh. Log entries 2 and 3. -/
opaque Config.freeWord : Nat → Word

/-- FREE VALUE: the rows of the matrices of the engine the reset state stands for; the source gives no
matrix (91_not_in_source.md N1). Log entry 5. -/
opaque Config.freeRow : Dir → Nat → Word

/-- FREE VALUE: what LAT_SUB exceeds 1 by, in the engine the reset state stands for (D24). Log entry 5. -/
opaque Config.extraSub : Nat

/-- FREE VALUE: what LAT_MIX exceeds 1 by, in the engine the reset state stands for (D24). Log entry 5. -/
opaque Config.extraMix : Nat

/-- The engine `State.reset` stands for. DESIGN CHOICE (log entry 5): width 8, the width the register
vectors of 95_test_vectors.md start from; matrices and latencies free. Statements about steps hold for
every `Config`, not for this one only. -/
def Config.built : Config where
  width := .w8
  matF := (List.range 8).map fun j => Config.freeRow .forward j &&& 0x00FF
  matI := (List.range 8).map fun j => Config.freeRow .inverse j &&& 0x00FF
  latSub := Config.extraSub + 1
  latMix := Config.extraMix + 1

end Sys2Proof
end

