-- ==== Sys2Proof/Syntax.lean ====
section
/-! DEFINITION. The instructions: the eight command words written to CMD and the two host transactions,
one constructor per row of spec/opcode_table.json. -/

namespace Sys2Proof

/-- The rows of spec/opcode_table.json (R46, R45). A round count is a number (R47); a register address
and a bus word are bits. A read has no data operand: its wdata bits are ignored (R45). -/
inductive Instr where
  /-- NOP: no change of data, a DONE event (R96). -/
  | nop
  /-- RUN.F #R: R forward rounds (R90). -/
  | runF (r : Nat)
  /-- RUN.I #R: R inverse rounds (R91). -/
  | runI (r : Nat)
  /-- SUB.F: one confusion step with bank 0 (R76). -/
  | subF
  /-- SUB.I: one confusion step with bank 1 (R77). -/
  | subI
  /-- MIX.F: one diffusion step with MATF (R84). -/
  | mixF
  /-- MIX.I: one diffusion step with MATI (R85). -/
  | mixI
  /-- CLRST: all state words to zero (R97). -/
  | clrst
  /-- RD: the register read transaction RegRead(addr) (R53). -/
  | rd (addr : RegAddr)
  /-- WR: the register write transaction RegWrite(addr, wdata) (R54). -/
  | wr (addr : RegAddr) (wdata : BusWord)
  deriving DecidableEq, Repr, Inhabited

end Sys2Proof
end

