-- ==== Sys2Proof/WellFormed.lean ====
section
/-! DEFINITION. Which instructions can be written down: a round count fits its 16-bit field. -/

namespace Sys2Proof

/-- The one bound the types do not already say: 0 ≤ R ≤ 65535 (R47). Addresses and bus words carry their
widths in their types. -/
def Instr.wf : Instr → Bool
  | .runF r => decide (r ≤ 65535)
  | .runI r => decide (r ≤ 65535)
  | .nop => true
  | .subF => true
  | .subI => true
  | .mixF => true
  | .mixI => true
  | .clrst => true
  | .rd _ => true
  | .wr _ _ => true

/-- Well-formed instructions. -/
abbrev Instr.WellFormed (i : Instr) : Prop := i.wf = true

end Sys2Proof
end

