-- ==== Sys2Proof/Decode.lean ====
section
/-! DEFINITION. The decoders of the two formats, command word and host transaction, and after them the
encoder (30_encoding.md). -/

namespace Sys2Proof

/-- What the CMD register accepts: the eight commands of R46. The engine control state latches one. -/
inductive Command where
  | nop
  | runF (r : Nat)
  | runI (r : Nat)
  | subF
  | subI
  | mixF
  | mixI
  | clrst
  deriving DecidableEq, Repr, Inhabited

/-- Why a command word names no command. -/
inductive DecodeError where
  /-- BADCMD of R49 and R50; raised by `decodeCommand`, recorded in STATUS as error code 1. -/
  | badcmd
  deriving DecidableEq, Repr, Inhabited

/-- A command as an instruction. -/
def Command.toInstr : Command → Instr
  | .nop => .nop
  | .runF r => .runF r
  | .runI r => .runI r
  | .subF => .subF
  | .subI => .subI
  | .mixF => .mixF
  | .mixI => .mixI
  | .clrst => .clrst

/-- A command's well-formedness is its instruction's. -/
abbrev Command.WellFormed (c : Command) : Prop := c.toInstr.WellFormed

/-- OP, bits 3..0 of a command word (R44). -/
def cmdOp (c : BusWord) : BitVec 4 := c.extractLsb' 0 4

/-- D, bit 4 of a command word (R44). -/
def cmdD (c : BusWord) : Bool := c.getLsbD 4

/-- RSV, bits 15..5 of a command word (R44). -/
def cmdRsv (c : BusWord) : BitVec 11 := c.extractLsb' 5 11

/-- IMM, bits 31..16 of a command word (R44). -/
def cmdImm (c : BusWord) : Word := c.extractLsb' 16 16

/-- `decode(c)` of R49, test by test in the order the rule gives. Total; a word that names no command is
rejected as BADCMD (R50). -/
def decodeCommand (c : BusWord) : Except DecodeError Command :=
  if cmdRsv c ≠ 0 then .error .badcmd
  else if cmdOp c = 1 then .ok (if cmdD c = false then .runF (cmdImm c).toNat else .runI (cmdImm c).toNat)
  else if cmdImm c ≠ 0 then .error .badcmd
  else if cmdOp c = 0 ∧ cmdD c = false then .ok .nop
  else if cmdOp c = 2 then .ok (if cmdD c = false then .subF else .subI)
  else if cmdOp c = 3 then .ok (if cmdD c = false then .mixF else .mixI)
  else if cmdOp c = 4 ∧ cmdD c = false then .ok .clrst
  else .error .badcmd

/-- Decodes a host transaction: every (we, addr) pair is valid, and a read's wdata is ignored (R45). -/
def decodeTransaction (t : Transaction) : Instr :=
  if t.getLsbD 38 then .wr (t.extractLsb' 32 6) (t.extractLsb' 0 32) else .rd (t.extractLsb' 32 6)

/-- The instruction that `nbits` bits `w`, numbered as spec/opcode_table.json numbers them, stand for: 32
bits are a command word, 39 bits (40 when counted in whole bytes) a host transaction. -/
def decodeTableWord (nbits w : Nat) : Option Instr :=
  if nbits = 32 then
    if w < 2 ^ 32 then
      match decodeCommand (BitVec.ofNat 32 w) with
      | .ok c => some c.toInstr
      | .error _ => none
    else none
  else if nbits = 39 ∨ nbits = 40 then
    if w < 2 ^ 39 then some (decodeTransaction (BitVec.ofNat 39 w)) else none
  else none

/-- The command word IMM, RSV = 0, D, OP from its fields (R44). -/
def packCommand (imm : Word) (d : Bool) (op : BitVec 4) : BusWord :=
  imm ++ 0#11 ++ BitVec.ofBool d ++ op

/-- The command word of a command (R46, R47). -/
def encodeCommand : Command → BusWord
  | .nop => packCommand 0 false 0
  | .runF r => packCommand (BitVec.ofNat 16 r) false 1
  | .runI r => packCommand (BitVec.ofNat 16 r) true 1
  | .subF => packCommand 0 false 2
  | .subI => packCommand 0 true 2
  | .mixF => packCommand 0 false 3
  | .mixI => packCommand 0 true 3
  | .clrst => packCommand 0 false 4

/-- The transaction we, addr, wdata from its fields (R45). -/
def packTransaction (we : Bool) (addr : RegAddr) (wdata : BusWord) : Transaction :=
  BitVec.ofBool we ++ addr ++ wdata

/-- The word address of CMD (10_state.md section 5). -/
def cmdAddr : RegAddr := 0x03

/-- A command mnemonic as the host issues it: the transaction `WR CMD, <its encoding>` (R51). -/
def issueCommand (c : Command) : Transaction := packTransaction true cmdAddr (encodeCommand c)

/-- The encoder: the number of bits of the row, in whole bytes, and the bits. A read's ignored wdata is
written as zero. -/
def encode : Instr → Nat × Nat
  | .nop => (32, (encodeCommand .nop).toNat)
  | .runF r => (32, (encodeCommand (.runF r)).toNat)
  | .runI r => (32, (encodeCommand (.runI r)).toNat)
  | .subF => (32, (encodeCommand .subF).toNat)
  | .subI => (32, (encodeCommand .subI).toNat)
  | .mixF => (32, (encodeCommand .mixF).toNat)
  | .mixI => (32, (encodeCommand .mixI).toNat)
  | .clrst => (32, (encodeCommand .clrst).toNat)
  | .rd a => (40, (packTransaction false a 0).toNat)
  | .wr a v => (40, (packTransaction true a v).toNat)

/-- The transaction by which the host brings an instruction about: a register access is itself, a command
mnemonic means `WR CMD` of its encoding (R51). -/
def hostTransaction : Instr → Transaction
  | .nop => issueCommand .nop
  | .runF r => issueCommand (.runF r)
  | .runI r => issueCommand (.runI r)
  | .subF => issueCommand .subF
  | .subI => issueCommand .subI
  | .mixF => issueCommand .mixF
  | .mixI => issueCommand .mixI
  | .clrst => issueCommand .clrst
  | .rd a => packTransaction false a 0
  | .wr a v => packTransaction true a v

end Sys2Proof
end

