-- ==== Sys2Proof/Machine/State.lean ====
section
/-! DEFINITION. The state of the engine (10_state.md), the events of the world outside it, the reasons a
step can stop, and the state after reset. -/

namespace Sys2Proof.Machine

/-- The table memory: the entries the host has written, as (entry address, word) pairs in rising order of
address (`Memory.wf`, Machine/Ops.lean). The unit is the 16-bit entry: the table space has no bytes (R29,
R32). An entry not listed has not been written since power-up (R11); log entries 2 and 4. -/
abbrev Memory := List (Nat × Word)

/-- The error codes of R101. Codes 4 to 15 are never raised (U6). -/
inductive ErrCode where
  /-- Code 0: no error recorded. -/
  | none
  /-- Code 1. -/
  | badcmd
  /-- Code 2. -/
  | busy
  /-- Code 3. -/
  | badaddr
  deriving DecidableEq, Repr, Inhabited

/-- Which half of a round comes next (`phase` of R24). -/
inductive Phase where
  | first
  | second
  deriving DecidableEq, Repr, Inhabited

/-- The engine control state of R24: Idle, or Busy with the accepted command, the number of its rounds
completed and the half-round that comes next. -/
inductive Eng where
  | idle
  | busy (cmd : Command) (k : Nat) (phase : Phase)
  deriving DecidableEq, Repr, Inhabited

/-- What a register word address names on an engine of width N (10_state.md section 5, R22). -/
inductive Reg where
  | id
  | ctrl
  | status
  | cmd
  | tsel
  | tdata
  | rcnt
  | param
  | st (j : Nat)
  | matF (j : Nat)
  | matI (j : Nat)
  | reserved
  deriving DecidableEq, Repr, Inhabited

/-- What happens to the engine, in the order in which it happens. One list of these in State is the whole
interleaving of the outside world with the engine's own progress; every order of host transactions and
completion the spec admits is some list (R27, R87, R88; log entry 6). -/
inductive Event where
  /-- Power is applied: every register and the table memory hold unspecified values until a reset (R113, R115). -/
  | powerUp
  /-- `rst_n` is sampled low at a rising edge of `clk` (R114). -/
  | reset
  /-- A host transaction takes effect (R27). -/
  | txn (t : Transaction)
  /-- A byte, half-word or misaligned access of a wider interconnect, which no host may issue (R33, U13). -/
  | narrow (byteOffset size : Nat)
  /-- The engine performs the next half-round of the running RUN command (R90, R91). -/
  | advance
  /-- The running command completes (R87, R88). -/
  | complete
  deriving DecidableEq, Repr, Inhabited

/-- Why the machine stops with a fault. -/
inductive Fault where
  /-- The engine would act of itself between power-up and the first reset, where "the engine's behaviour is
  undefined" (R115). Raised by `step`. Safe: nothing is claimed of such a run. -/
  | behaviourBeforeReset
  deriving DecidableEq, Repr, Inhabited

/-- Why the machine refuses a step. -/
inductive Refusal where
  /-- An instruction that has no meaning yet. Raised by no arm: every instruction has its meaning. Safe. -/
  | notModelled (mnemonic : String)
  /-- A host transaction before the first reset after power-up; "a host may not issue transactions before
  reset" (R115, U4). Raised by `step`. Safe: such a host program is outside the model. -/
  | transactionBeforeReset
  /-- An access that is not one full 32-bit word at a word address; "a model refuses it" (R33, U13). Raised
  by `step`. Safe: such a host program is outside the model. -/
  | notFullWordAccess
  deriving DecidableEq, Repr, Inhabited

/-- The machine: the engine's build parameters, its architectural and hidden state (10_state.md), its output
port, what the outside world does next, and the model's own draw counter. Plain data. -/
structure State where
  /-- The build parameters (R6); constant. -/
  cfg : Config
  /-- ST[0..N-1], the cipher block (R9). -/
  st : List Word
  /-- TBL, the two banks of N tables, as the entries written since power-up (R10, R11). -/
  tbl : Memory
  /-- CTRL.IE_DONE (R14). -/
  ieDone : Bool
  /-- CTRL.IE_ERR (R14). -/
  ieErr : Bool
  /-- STATUS.DONE (R15). -/
  done : Bool
  /-- STATUS.ERR (R15). -/
  err : Bool
  /-- STATUS.ERRCODE (R15). -/
  errCode : ErrCode
  /-- TSEL.INDEX (R17). -/
  tselIndex : Word
  /-- TSEL.SLOT (R17). -/
  tselSlot : BitVec 4
  /-- TSEL.BANK (R17). -/
  tselBank : Dir
  /-- RCNT (R19). -/
  rcnt : Word
  /-- ENG (R24); STATUS.BUSY reads 1 exactly when it is Busy (R15). -/
  eng : Eng
  /-- MIXED[0..N-1], the buffer inside a round (R24). -/
  mixed : List Word
  /-- `rdata`, the value of the last acknowledged read (R26; log entry 7). -/
  rdata : BusWord
  /-- `ack`: the last step was a host transaction, and it has taken effect (R26, R27; log entry 7). -/
  ack : Bool
  /-- `rst_n` has been sampled low since power-up (R115). -/
  resetDone : Bool
  /-- What happens next, first event first; the model's own field (log entry 6). -/
  events : List Event
  /-- How many draws have been taken; the model's own field (log entry 3). -/
  draws : Nat
  deriving DecidableEq, Repr

/-- The state after reset of an engine with build parameters `c` (R114), its tables unwritten (R115).
`mixed` and `rdata` have no reset value in the spec: zero is a DESIGN CHOICE (log entries 1 and 7). -/
def State.resetOf (c : Config) : State where
  cfg := c
  st := List.replicate c.n 0
  tbl := []
  ieDone := false
  ieErr := false
  done := false
  err := false
  errCode := .none
  tselIndex := 0
  tselSlot := 0
  tselBank := .forward
  rcnt := 0
  eng := .idle
  mixed := List.replicate c.n 0
  rdata := 0
  ack := false
  resetDone := true
  events := []
  draws := 0

/-- The machine right after reset (R114, R115), for the engine of log entry 5. -/
def State.reset : State := State.resetOf Config.built

end Sys2Proof.Machine
end

