-- ==== Sys2Proof/Machine/Ops.lean ====
section
/-! DEFINITION. The operations every meaning is made of: table memory, bit matrices and word vectors, the
reporting of an error (this engine's only exception) and its acknowledgement, acceptance and completion of a
command, the reset edge. -/

namespace Sys2Proof.Machine

/-- 1 for the inverse bank or direction, 0 for the forward one (R10, R44). -/
def dirNum : Dir → Nat
  | .forward => 0
  | .inverse => 1

/-- N of this engine. -/
def State.n (s : State) : Nat := s.cfg.n

/-- STATUS.BUSY: `ENG` is not Idle (R15). -/
def State.isBusy (s : State) : Bool :=
  match s.eng with
  | .idle => false
  | .busy _ _ _ => true

/-! ### Table memory (R10, R29) -/

/-- The address of TBL[b][j][x] in the table space: the number whose bits are BANK, SLOT, INDEX as TSEL
lays them out (R17). -/
def entryAddr (b : Dir) (j : Nat) (x : Word) : Nat := (dirNum b * 16 + j) * 65536 + x.toNat

/-- The slot of an entry address. -/
def entrySlot (a : Nat) : Nat := a / 65536 % 16

/-- The entry at an address, if it has been written since power-up. -/
def Memory.read : Memory → Nat → Option Word
  | [], _ => none
  | (k, w) :: m, a => if k = a then some w else Memory.read m a

/-- `TblWrite`: replaces the entry or inserts it at its place in the order. -/
def Memory.write : Memory → Nat → Word → Memory
  | [], a, v => [(a, v)]
  | (k, w) :: m, a, v =>
    if k < a then (k, w) :: Memory.write m a v
    else if k = a then (a, v) :: m
    else (a, v) :: (k, w) :: m

/-- Every address is at least `lo` and the addresses rise strictly. -/
def Memory.rising (lo : Nat) : Memory → Bool
  | [] => true
  | (k, _) :: m => decide (lo ≤ k) && Memory.rising (k + 1) m

/-- The canonical form: addresses strictly rising. An unlisted entry reads as unwritten, which no listed
word equals, so equal table memories are equal lists. -/
def Memory.wf (m : Memory) : Bool := Memory.rising 0 m

/-- Every listed address lies in the table space of an engine of width `n`: two banks, slots below `n` (R10). -/
def Memory.within (n : Nat) (m : Memory) : Bool :=
  m.all fun p => decide (p.1 < 2 * 16 * 65536) && decide (entrySlot p.1 < n)

/-- `TblRead` as draw number `d`: the entry, or for an entry not written since power-up a free word (R11,
U1 with treatment "any value"; log entry 2). -/
def Memory.lookup (m : Memory) (b : Dir) (j : Nat) (x : Word) (d : Nat) : Word :=
  (m.read (entryAddr b j x)).getD (Config.freeWord d)

/-! ### Vectors of words and bit matrices -/

/-- The vector with entry `f j` at each j below n. -/
def tabulate (n : Nat) (f : Nat → Word) : List Word := (List.range n).map f

/-- Entry j of a vector. -/
def wordAt (v : List Word) (j : Nat) : Word := v.getD j 0

/-- `M[j][i]`: row j, column i (00_scope.md notation). -/
def matEntry (m : List Word) (j i : Nat) : Bool := (wordAt m j).getLsbD i

/-- The XOR of `f i` over i below n, 0x0000 over the empty set. -/
def xorSum : Nat → (Nat → Word) → Word
  | 0, _ => 0
  | n + 1, f => xorSum n f ^^^ f n

/-- The sum over GF(2) of `p i` over i below n (00_scope.md notation). -/
def bitSum : Nat → (Nat → Bool) → Bool
  | 0, _ => false
  | n + 1, p => bitSum n p ^^ p n

/-- The word whose bit i is `f i` for i below n, higher bits 0. -/
def bitsToWord : Nat → (Nat → Bool) → Word
  | 0, _ => 0
  | n + 1, f => bitsToWord n f ||| (if f n then BitVec.twoPow 16 n else 0)

/-- `SubLayer(b, s)` of R71 on N words: entry j is TBL[b][j][s[j]]. Lookup j of the step is draw `d + j`. -/
def subVec (tbl : Memory) (n : Nat) (b : Dir) (d : Nat) (v : List Word) : List Word :=
  tabulate n fun j => tbl.lookup b j (wordAt v j) (d + j)

/-- `MixLayer(M, s)` of R78 on N words: entry j is the XOR of the s[i] with M[j][i] = 1. -/
def mixVec (n : Nat) (m : List Word) (v : List Word) : List Word :=
  tabulate n fun j => xorSum n fun i => if matEntry m j i then wordAt v i else 0

/-- The matrix of a direction (R44). -/
def Config.matrix (c : Config) : Dir → List Word
  | .forward => c.matF
  | .inverse => c.matI

/-! ### Errors: the engine's only exception (R102, R105, R106) -/

/-- `raise Error(code)`: ERR is set, and the code is kept only if no error is recorded yet (R102). -/
def State.raise (code : ErrCode) (s : State) : State :=
  { s with err := true, errCode := if s.err then s.errCode else code }

/-- The acknowledgement of an error, if bit `b` says so: ERR and ERRCODE are cleared together (R106). -/
def State.ackErr (b : Bool) (s : State) : State :=
  { s with err := if b then false else s.err, errCode := if b then .none else s.errCode }

/-- The acknowledgement of a completion, if bit `b` says so (R104). -/
def State.ackDone (b : Bool) (s : State) : State := { s with done := if b then false else s.done }

/-! ### The host port -/

/-- A write transaction has taken effect (R27). -/
def State.acked (s : State) : State := { s with ack := true }

/-- A read transaction has taken effect and returned `v` (R27). -/
def State.answer (v : BusWord) (s : State) : State := { s with rdata := v, ack := true }

/-! ### Commands: acceptance and completion (R86, R87) -/

/-- RUN.F and RUN.I, whose acceptance clears RCNT (R86). -/
def isRun : Command → Bool
  | .runF _ => true
  | .runI _ => true
  | .nop => false
  | .subF => false
  | .subI => false
  | .mixF => false
  | .mixI => false
  | .clrst => false

/-- The acceptance of a command (R86). -/
def State.accept (c : Command) (s : State) : State :=
  { s with done := false, rcnt := if isRun c then 0 else s.rcnt, eng := .busy c 0 .first }

/-- The completion of a command, after its effect (R87). -/
def State.finish (s : State) : State := { s with eng := .idle, done := true }

/-- A command as a whole, `effect` being what it does to the data. From Idle it is accepted and completes;
while it is itself the running command it completes from where it stands (R87); while another command runs it
is refused as the CMD write it is (R86). Log entry 8. -/
def State.command (c : Command) (effect : State → State) (s : State) : Host.Outcome State Fault Refusal :=
  match s.eng with
  | .idle => .next (effect (s.accept c)).finish
  | .busy c' _ _ => if c' = c then .next (effect s).finish else .next (s.raise .busy).acked

/-- One confusion step on ST (R76, R77). -/
def State.subLayer (b : Dir) (s : State) : State :=
  { s with st := subVec s.tbl s.n b s.draws s.st, draws := s.draws + s.n }

/-- One diffusion step on ST (R84, R85). -/
def State.mixLayer (b : Dir) (s : State) : State :=
  { s with st := mixVec s.n (Config.matrix s.cfg b) s.st }

/-! ### Reset and power-up (R114, R115) -/

/-- A rising edge with `rst_n` low: every piece of state takes its reset value, the table memory keeps its
content, a running command is abandoned (R114). What the outside world does next and the count of draws go on. -/
def State.resetEdge (s : State) : State :=
  { State.resetOf s.cfg with tbl := s.tbl, events := s.events, draws := s.draws }

/-- Power-up: the table content is unspecified, hence unwritten, and the engine has not been reset (R113,
R115). The registers are unspecified too; the model lets them stand, and no step reads them before a reset has
overwritten them (log entry 9). MODEL'S CHOICE: with them the level of `irq` stands as well, which R115 leaves
undefined until that reset (log entry 21). -/
def State.powerUp (s : State) : State := { s with tbl := [], resetDone := false }

end Sys2Proof.Machine
end

