-- ==== Sys2Proof/Machine/Operands.lean ====
section
/-! DEFINITION. The operand forms: a register word address, a 16-bit value on the 32-bit port, the fields of
the TSEL word, a matrix row. -/

namespace Sys2Proof.Machine

/-- The register at word address `a` of an engine of width `n` (10_state.md section 5, R22, R36). -/
def regAt (n : Nat) (a : RegAddr) : Reg :=
  if a.toNat < 0x08 then
    match a.toNat with
    | 0 => .id
    | 1 => .ctrl
    | 2 => .status
    | 3 => .cmd
    | 4 => .tsel
    | 5 => .tdata
    | 6 => .rcnt
    | _ => .param
  else if a.toNat < 0x10 then .reserved
  else if a.toNat < 0x20 then if a.toNat - 0x10 < n then .st (a.toNat - 0x10) else .reserved
  else if a.toNat < 0x30 then if a.toNat - 0x20 < n then .matF (a.toNat - 0x20) else .reserved
  else if a.toNat - 0x30 < n then .matI (a.toNat - 0x30) else .reserved

/-- A 16-bit value as a bus word: bits 15..0, the higher bits zero (R32). -/
def widen (w : Word) : BusWord := w.setWidth 32

/-- The 16-bit value a bus word carries: bits 31..16 are ignored (R32). -/
def narrowed (v : BusWord) : Word := v.extractLsb' 0 16

/-- INDEX, bits 15..0 of a TSEL word (R17). -/
def tselIndexOf (v : BusWord) : Word := v.extractLsb' 0 16

/-- SLOT, bits 19..16 of a TSEL word (R17). -/
def tselSlotOf (v : BusWord) : BitVec 4 := v.extractLsb' 16 4

/-- BANK, bit 20 of a TSEL word (R17). -/
def tselBankOf (v : BusWord) : Dir := if v.getLsbD 20 then .inverse else .forward

/-- The bit of a bank or direction (R17, R44). -/
def dirBit : Dir → Bool
  | .forward => false
  | .inverse => true

/-- The word RD TSEL returns: BANK, SLOT, INDEX, bits 31..21 zero (R62). -/
def tselWord (s : State) : BusWord := 0#11 ++ BitVec.ofBool (dirBit s.tselBank) ++ s.tselSlot ++ s.tselIndex

/-- TSEL selects a slot that does not exist on this engine (R17, R18). -/
def badSlot (s : State) : Bool := decide (s.n ≤ s.tselSlot.toNat)

/-- The address of the entry TSEL selects (R18). -/
def tselAddr (s : State) : Nat := entryAddr s.tselBank s.tselSlot.toNat s.tselIndex

/-- Row j of a matrix as its window returns it: bit i is M[j][i] for i below N, higher bits zero (R21). -/
def rowWord (n : Nat) (m : List Word) (j : Nat) : BusWord := widen (bitsToWord n (matEntry m j))

/-- The constant of the ID register (R13). -/
def idWord : BusWord := 0x53504E31

end Sys2Proof.Machine
end

