-- ==== Sys2Proof/Machine/Flags.lean ====
section
/-! DEFINITION. The flags: the STATUS and CTRL words, the write-1-to-clear rule, the interrupt output. No
command computes a flag from data (R23). -/

namespace Sys2Proof.Machine

/-- The number of an error code (R101). -/
def errBits : ErrCode → BitVec 4
  | .none => 0
  | .badcmd => 1
  | .busy => 2
  | .badaddr => 3

/-- The word RD STATUS returns: ERRCODE in 7..4, ERR in 2, DONE in 1, BUSY in 0 (R58). -/
def statusWord (s : State) : BusWord :=
  0#24 ++ errBits s.errCode ++ 0#1 ++ BitVec.ofBool s.err ++ BitVec.ofBool s.done ++ BitVec.ofBool s.isBusy

/-- A write of `v` to STATUS: bit 1 clears DONE, bit 2 clears ERR and ERRCODE, all other bits are ignored (R59). -/
def State.writeStatus (v : BusWord) (s : State) : State :=
  (s.ackDone (v.getLsbD 1)).ackErr (v.getLsbD 2)

/-- The word RD CTRL returns: IE_ERR in 1, IE_DONE in 0 (R56). -/
def ctrlWord (s : State) : BusWord := 0#30 ++ BitVec.ofBool s.ieErr ++ BitVec.ofBool s.ieDone

/-- A write of `v` to CTRL (R57). -/
def State.writeCtrl (v : BusWord) (s : State) : State := { s with ieDone := v.getLsbD 0, ieErr := v.getLsbD 1 }

/-- The interrupt output, a level (R104). Between power-up and the first reset this level is the model's choice
(R115 leaves it undefined; log entry 21). -/
def State.irq (s : State) : Bool := (s.ieDone && s.done) || (s.ieErr && s.err)

end Sys2Proof.Machine
end

