-- ==== Sys2Proof/Machine/Access.lean ====
section
/-! DEFINITION. The host transactions RD and WR (40_register_access.md). -/

namespace Sys2Proof.Machine

/-- RD TDATA: BADADDR for a slot that does not exist, else BUSY while a command runs, else the selected entry,
after which INDEX is incremented modulo 65536 (R64). A refused read returns 0 (R102). -/
def State.readTdata (s : State) : State :=
  if badSlot s then (s.raise .badaddr).answer 0
  else if s.isBusy then (s.raise .busy).answer 0
  else { s with tselIndex := s.tselIndex + 1, draws := s.draws + 1 }.answer
    (widen (s.tbl.lookup s.tselBank s.tselSlot.toNat s.tselIndex s.draws))

/-- RD STj: the state word while Idle, a fresh free word while Busy (R67, R119; log entry 3). -/
def State.readSt (j : Nat) (s : State) : State :=
  if s.isBusy then { s with draws := s.draws + 1 }.answer (widen (Config.freeWord s.draws))
  else s.answer (widen (wordAt s.st j))

/-- WR CMD: BUSY while a command runs, BADCMD for a word that names no command, else acceptance (R86). -/
def State.writeCmd (c : BusWord) (s : State) : State :=
  if s.isBusy then s.raise .busy
  else match decodeCommand c with
    | .error _ => s.raise .badcmd
    | .ok x => s.accept x

/-- WR TSEL (R63). -/
def State.writeTsel (v : BusWord) (s : State) : State :=
  if s.isBusy then s.raise .busy
  else { s with tselIndex := tselIndexOf v, tselSlot := tselSlotOf v, tselBank := tselBankOf v }

/-- WR TDATA: refused as the read is, else the selected entry is written and INDEX incremented (R65). -/
def State.writeTdata (v : BusWord) (s : State) : State :=
  if badSlot s then s.raise .badaddr
  else if s.isBusy then s.raise .busy
  else { s with tbl := s.tbl.write (tselAddr s) (narrowed v), tselIndex := s.tselIndex + 1 }

/-- WR STj (R68). -/
def State.writeSt (j : Nat) (v : BusWord) (s : State) : State :=
  if s.isBusy then s.raise .busy else { s with st := s.st.set j (narrowed v) }

/-- RD addr: the read rule of the register at the address (R53, R55 to R69). -/
def execRd (a : RegAddr) (s : State) : Host.Outcome State Fault Refusal :=
  match regAt s.n a with
  | .id => .next (s.answer idWord)
  | .ctrl => .next (s.answer (ctrlWord s))
  | .status => .next (s.answer (statusWord s))
  | .cmd => .next (s.answer 0)
  | .tsel => .next (s.answer (tselWord s))
  | .tdata => .next s.readTdata
  | .rcnt => .next (s.answer (widen s.rcnt))
  | .param => .next (s.answer (BitVec.ofNat 32 s.n))
  | .st j => .next (s.readSt j)
  | .matF j => .next (s.answer (rowWord s.n s.cfg.matF j))
  | .matI j => .next (s.answer (rowWord s.n s.cfg.matI j))
  | .reserved => .next (s.answer 0)

/-- WR addr, v: the write rule of the register at the address; BADADDR for a reserved address or a read-only
register (R54, R70). -/
def execWr (a : RegAddr) (v : BusWord) (s : State) : Host.Outcome State Fault Refusal :=
  match regAt s.n a with
  | .ctrl => .next (s.writeCtrl v).acked
  | .status => .next (s.writeStatus v).acked
  | .cmd => .next (s.writeCmd v).acked
  | .tsel => .next (s.writeTsel v).acked
  | .tdata => .next (s.writeTdata v).acked
  | .st j => .next (s.writeSt j v).acked
  | .id => .next (s.raise .badaddr).acked
  | .rcnt => .next (s.raise .badaddr).acked
  | .param => .next (s.raise .badaddr).acked
  | .matF _ => .next (s.raise .badaddr).acked
  | .matI _ => .next (s.raise .badaddr).acked
  | .reserved => .next (s.raise .badaddr).acked

end Sys2Proof.Machine
end

