-- ==== Sys2Proof/Machine/Confusion.lean ====
section
/-! DEFINITION. The confusion commands SUB.F and SUB.I (41_confusion.md). -/

namespace Sys2Proof.Machine

/-- SUB.F: ST <- SubLayer(0, ST) (R76). -/
def execSubF (s : State) : Host.Outcome State Fault Refusal := s.command .subF (State.subLayer .forward)

/-- SUB.I: ST <- SubLayer(1, ST) (R77). -/
def execSubI (s : State) : Host.Outcome State Fault Refusal := s.command .subI (State.subLayer .inverse)

end Sys2Proof.Machine
end

