-- ==== Sys2Proof/Machine/Diffusion.lean ====
section
/-! DEFINITION. The diffusion commands MIX.F and MIX.I (42_diffusion.md). -/

namespace Sys2Proof.Machine

/-- MIX.F: ST <- MixLayer(MATF, ST) (R84). -/
def execMixF (s : State) : Host.Outcome State Fault Refusal := s.command .mixF (State.mixLayer .forward)

/-- MIX.I: ST <- MixLayer(MATI, ST) (R85). -/
def execMixI (s : State) : Host.Outcome State Fault Refusal := s.command .mixI (State.mixLayer .inverse)

end Sys2Proof.Machine
end

