-- ==== Sys2Proof/Machine/Rounds.lean ====
section
/-! DEFINITION. Round control: the rounds, half by half, and the commands RUN.F, RUN.I, NOP and CLRST
(43_round_control.md). -/

namespace Sys2Proof.Machine

/-- The next half of forward round k + 1 of RUN.F #r: MIXED <- SubLayer(0, ST), then ST <- MixLayer(MATF,
MIXED) and RCNT <- RCNT + 1 (R90). -/
def State.halfForward (r k : Nat) (p : Phase) (s : State) : State :=
  match p with
  | .first =>
    { s with mixed := subVec s.tbl s.n .forward s.draws s.st, draws := s.draws + s.n, eng := .busy (.runF r) k .second }
  | .second =>
    { s with st := mixVec s.n s.cfg.matF s.mixed, rcnt := s.rcnt + 1, eng := .busy (.runF r) (k + 1) .first }

/-- The next half of inverse round k + 1 of RUN.I #r: MIXED <- MixLayer(MATI, ST), then ST <- SubLayer(1,
MIXED) and RCNT <- RCNT + 1 (R91). -/
def State.halfInverse (r k : Nat) (p : Phase) (s : State) : State :=
  match p with
  | .first => { s with mixed := mixVec s.n s.cfg.matI s.st, eng := .busy (.runI r) k .second }
  | .second =>
    { s with st := subVec s.tbl s.n .inverse s.draws s.mixed, draws := s.draws + s.n, rcnt := s.rcnt + 1,
             eng := .busy (.runI r) (k + 1) .first }

/-- The engine's progress inside a command: the next half-round of a RUN that has rounds left. A command that
is not a RUN has its whole effect at completion (R87, R88). -/
def State.advance (s : State) : State :=
  match s.eng with
  | .busy (.runF r) k p => if k < r then s.halfForward r k p else s
  | .busy (.runI r) k p => if k < r then s.halfInverse r k p else s
  | _ => s

/-- `m` half-rounds of progress. -/
def State.advanceBy : Nat → State → State
  | 0, s => s
  | m + 1, s => State.advanceBy m s.advance

/-- How many half-rounds are left of R rounds when k are done and phase p comes next. -/
def halvesOf (r k : Nat) : Phase → Nat
  | .first => 2 * (r - k)
  | .second => 2 * (r - k) - 1

/-- How many half-rounds the running command has left. -/
def State.halvesLeft (s : State) : Nat :=
  match s.eng with
  | .busy (.runF r) k p => halvesOf r k p
  | .busy (.runI r) k p => halvesOf r k p
  | _ => 0

/-- Every round that is left, half by half. -/
def State.allRounds (s : State) : State := s.advanceBy s.halvesLeft

/-- RUN.F #R (R90). -/
def execRunF (r : Nat) (s : State) : Host.Outcome State Fault Refusal := s.command (.runF r) State.allRounds

/-- RUN.I #R (R91). -/
def execRunI (r : Nat) (s : State) : Host.Outcome State Fault Refusal := s.command (.runI r) State.allRounds

/-- NOP: no data changes (R96). -/
def execNop (s : State) : Host.Outcome State Fault Refusal := s.command .nop fun t => t

/-- CLRST: every state word becomes 0x0000 (R97). -/
def execClrst (s : State) : Host.Outcome State Fault Refusal :=
  s.command .clrst fun t => { t with st := List.replicate t.n 0 }

/-- RoundF of R89 with its lookups drawn from `d` on: diffusion with MATF of confusion with bank 0. -/
def roundF (c : Config) (tbl : Memory) (d : Nat) (v : List Word) : List Word :=
  mixVec c.n c.matF (subVec tbl c.n .forward d v)

/-- RoundI of R89: confusion with bank 1 of diffusion with MATI. -/
def roundI (c : Config) (tbl : Memory) (d : Nat) (v : List Word) : List Word :=
  subVec tbl c.n .inverse d (mixVec c.n c.matI v)

/-- RoundF applied `r` times; round i + 1 takes its draws from `d + i * N` on. -/
def roundsF (c : Config) (tbl : Memory) : Nat → Nat → List Word → List Word
  | 0, _, v => v
  | r + 1, d, v => roundsF c tbl r (d + c.n) (roundF c tbl d v)

/-- RoundI applied `r` times. -/
def roundsI (c : Config) (tbl : Memory) : Nat → Nat → List Word → List Word
  | 0, _, v => v
  | r + 1, d, v => roundsI c tbl r (d + c.n) (roundI c tbl d v)

end Sys2Proof.Machine
end

