-- ==== Sys2Proof/Machine/Dispatch.lean ====
section
/-! DEFINITION. One arm per instruction, each one call of its meaning. -/

namespace Sys2Proof.Machine

def exec (i : Instr) (s : State) : Host.Outcome State Fault Refusal :=
  match i with
  | .nop => Sys2Proof.Machine.execNop s
  | .runF r => Sys2Proof.Machine.execRunF r s
  | .runI r => Sys2Proof.Machine.execRunI r s
  | .subF => Sys2Proof.Machine.execSubF s
  | .subI => Sys2Proof.Machine.execSubI s
  | .mixF => Sys2Proof.Machine.execMixF s
  | .mixI => Sys2Proof.Machine.execMixI s
  | .clrst => Sys2Proof.Machine.execClrst s
  | .rd a => Sys2Proof.Machine.execRd a s
  | .wr a v => Sys2Proof.Machine.execWr a v s

end Sys2Proof.Machine
end

