-- ==== Sys2Proof/Machine/Events.lean ====
section
/-! DEFINITION. What each event does, and how an instruction comes to be the next one to run: everything Step
calls. -/

namespace Sys2Proof.Machine

/-- The engine's completion step, "enabled exactly when ENG is Busy" (R88): it runs the accepted command.
An Idle engine holds its state (R113). -/
def engineCompletes (s : State) : Host.Outcome State Fault Refusal :=
  match s.eng with
  | .idle => .next s
  | .busy c _ _ => exec c.toInstr s

/-- One event after reset. -/
def onEvent (e : Event) (s : State) : Host.Outcome State Fault Refusal :=
  match e with
  | .powerUp => .next s.powerUp
  | .reset => .next s.resetEdge
  | .txn t => exec (decodeTransaction t) s
  | .narrow _ _ => .refused .notFullWordAccess
  | .advance => .next s.advance
  | .complete => engineCompletes s

/-- One event before the first reset after power-up (R115): only power and reset do anything defined, the host
may not issue a transaction (U4), and what the engine does of itself is undefined. -/
def onEventBeforeReset (e : Event) (s : State) : Host.Outcome State Fault Refusal :=
  match e with
  | .powerUp => .next s.powerUp
  | .reset => .next s.resetEdge
  | .txn _ => .refused .transactionBeforeReset
  | .narrow _ _ => .refused .notFullWordAccess
  | .advance => .fault .behaviourBeforeReset
  | .complete => .fault .behaviourBeforeReset

/-- The state in which the event at the head of the list takes place: the event is taken off and `ack` is low. -/
def State.popEvent (rest : List Event) (s : State) : State := { s with events := rest, ack := false }

/-- The state in which the next step runs the instruction of a table word (log entry 10). A command word is
accepted into ENG and its completion is next; a word that is no command arrives as the CMD write that reports
it; a transaction is the next one to take effect. -/
def State.loadWord (nbits w : Nat) (s : State) : State :=
  if nbits = 32 then
    match decodeCommand (BitVec.ofNat 32 w) with
    | .ok c => { s.accept c with events := .complete :: s.events, resetDone := true }
    | .error _ => { s with events := .txn (packTransaction true cmdAddr (BitVec.ofNat 32 w)) :: s.events, resetDone := true }
  else { s with events := .txn (BitVec.ofNat 39 w) :: s.events, resetDone := true }

end Sys2Proof.Machine
end

