-- ==== Sys2Proof/Machine/Step.lean ====
section
/-! DEFINITION. One step: the next event takes place. When no event is left, the world does nothing more: a
running command completes, and an Idle engine holds its state. -/

namespace Sys2Proof.Machine

/-- One step of the machine. A list of events is finite, so a running command always completes (the weak
fairness of R88). -/
def step (s : State) : Host.Outcome State Fault Refusal :=
  match s.events, s.resetDone with
  | e :: rest, true => onEvent e (s.popEvent rest)
  | e :: rest, false => onEventBeforeReset e (s.popEvent rest)
  | [], true => engineCompletes (s.popEvent [])
  | [], false => .fault .behaviourBeforeReset

/-- `s` with the instruction of a table word as the one the next step runs. -/
def State.withFetchWord (s : State) (nbits w : Nat) : State := s.loadWord nbits w

end Sys2Proof.Machine
end

