-- ==== Sys2Proof/Machine/Program.lean ====
section
/-! DEFINITION. Host programs in the assembler of R51: a printer, and the pseudo-instructions of R52 as lists
of events. -/

namespace Sys2Proof.Machine

/-- An instruction of a host program as the event of its transaction; a command mnemonic means `WR CMD` (R51). -/
def issue (i : Instr) : Event := .txn (hostTransaction i)

/-- The state after events that take place one after the other. It stays where one of them stops the machine. -/
def State.after : List Event → State → State
  | [], s => s
  | e :: es, s =>
    match onEvent e (s.popEvent []) with
    | .next t => State.after es t
    | .fault _ => s
    | .refused _ => s

/-- The read `RD STATUS`, the body of POLL (R52). -/
def statusRead : Event := issue (.rd 0x02)

/-- Bit 0 (BUSY) of the value `RD STATUS` returns in `s`. -/
def readsBusy (s : State) : Bool := (s.after [statusRead]).rdata.getLsbD 0

/-- What the engine does between one read of POLL and the next: a number of half-rounds, and whether it then
completes. The spec leaves this pace to the engine (R87); log entry 12. -/
structure Wait where
  halves : Nat
  completes : Bool
  deriving DecidableEq, Repr, Inhabited

/-- A wait as events. -/
def Wait.events (w : Wait) : List Event :=
  List.replicate w.halves .advance ++ if w.completes then [.complete] else []

/-- POLL (R52) from `s`: `RD STATUS` is repeated until bit 0 of the value read is 0, the engine taking the next
wait of `pace` before each read. Where `pace` has ended one more read follows at once, and if it still finds BUSY = 1,
the completion, which must come (R87), and the last read (log entry 12). What it computes is for a state after the
first reset: before it no read is answered (R115). -/
def pollEvents : List Wait → State → List Event
  | [], s => statusRead :: if readsBusy s then [.complete, statusRead] else []
  | w :: pace, s =>
    w.events ++ statusRead ::
      if readsBusy (s.after w.events) then pollEvents pace ((s.after w.events).after [statusRead]) else []

/-- An instruction followed by POLL, from `s`. -/
def issueAndPoll (i : Instr) (pace : List Wait) (s : State) : List Event :=
  issue i :: pollEvents pace (s.after [issue i])

/-- ENC #R (R52). -/
def encEvents (r : Nat) (pace : List Wait) (s : State) : List Event := issueAndPoll (.runF r) pace s

/-- DEC #R (R52). -/
def decEvents (r : Nat) (pace : List Wait) (s : State) : List Event := issueAndPoll (.runI r) pace s

/-- Two instructions, each followed by its POLL, from `s`. -/
def issueAndPollTwice (i j : Instr) (pace pace' : List Wait) (s : State) : List Event :=
  issueAndPoll i pace s ++ issueAndPoll j pace' (s.after (issueAndPoll i pace s))

/-- ROUND.F (R52): SUB.F, POLL, MIX.F, POLL. -/
def roundFEvents (pace pace' : List Wait) (s : State) : List Event := issueAndPollTwice .subF .mixF pace pace' s

/-- ROUND.I (R52): MIX.I, POLL, SUB.I, POLL. -/
def roundIEvents (pace pace' : List Wait) (s : State) : List Event := issueAndPollTwice .mixI .subI pace pace' s

/-- The word address of ST_j (10_state.md section 5). -/
def stAddr (j : Nat) : RegAddr := BitVec.ofNat 6 (0x10 + j)

/-- The writes of LDST from word j on. -/
def ldstFrom : Nat → List BusWord → List Event
  | _, [] => []
  | j, v :: vs => issue (.wr (stAddr j) v) :: ldstFrom (j + 1) vs

/-- LDST v0, ..., v(N-1) (R52). -/
def ldstEvents (vs : List BusWord) : List Event := ldstFrom 0 vs

/-- The TSEL word of an entry: (b << 20) | (j << 16) | x0 (R52). -/
def tselWordOf (b : Dir) (j : BitVec 4) (x : Word) : BusWord := 0#11 ++ BitVec.ofBool (dirBit b) ++ j ++ x

/-- LDTBL b, j, x0: v0, v1, ... (R52). -/
def ldtblEvents (b : Dir) (j : BitVec 4) (x : Word) (vs : List BusWord) : List Event :=
  issue (.wr 0x04 (tselWordOf b j x)) :: vs.map fun v => issue (.wr 0x05 v)

/-- CLRF (R52). -/
def clrfEvents : List Event := [issue (.wr 0x02 0x00000006)]

/-- A number in lower-case hexadecimal with 0x before it. -/
def hexText (n : Nat) : String := "0x" ++ String.ofList (Nat.toDigits 16 n)

/-- The register name of a word address (R51). An address R51 names no register for is printed as a number. -/
def regText (a : RegAddr) : String :=
  match regAt 16 a with
  | .id => "ID"
  | .ctrl => "CTRL"
  | .status => "STATUS"
  | .cmd => "CMD"
  | .tsel => "TSEL"
  | .tdata => "TDATA"
  | .rcnt => "RCNT"
  | .param => "PARAM"
  | .st j => "ST" ++ Nat.repr j
  | .matF j => "MATF" ++ Nat.repr j
  | .matI j => "MATI" ++ Nat.repr j
  | .reserved => hexText a.toNat

/-- An instruction in the syntax of R51. -/
def asmText : Instr → String
  | .nop => "NOP"
  | .runF r => "RUN.F #" ++ Nat.repr r
  | .runI r => "RUN.I #" ++ Nat.repr r
  | .subF => "SUB.F"
  | .subI => "SUB.I"
  | .mixF => "MIX.F"
  | .mixI => "MIX.I"
  | .clrst => "CLRST"
  | .rd a => "RD " ++ regText a
  | .wr a v => "WR " ++ regText a ++ ", " ++ hexText v.toNat

end Sys2Proof.Machine
end

