-- ==== Sys2Proof/Safety.lean ====
section
/-! DEFINITION. What holds of every reachable state, and what a safe run is. -/

namespace Sys2Proof.Machine

/-- How far a command can have come: RUN counts its rounds in RCNT and has a second half pending only inside a
round (R19, R24); any other command has its whole effect still ahead (R88). -/
def progressOk (rcnt : Word) (cmd : Command) (k : Nat) (p : Phase) : Prop :=
  match cmd with
  | .runF r => k ≤ r ∧ (k = r → p = .first) ∧ rcnt = BitVec.ofNat 16 k
  | .runI r => k ≤ r ∧ (k = r → p = .first) ∧ rcnt = BitVec.ofNat 16 k
  | _ => k = 0 ∧ p = .first

/-- While Busy: DONE was cleared at acceptance and only completion sets it (R86, R87), the command is one that
CMD can hold (R49), and its progress is in range. -/
def engOk (s : State) : Prop :=
  match s.eng with
  | .idle => True
  | .busy c k p => s.done = false ∧ c.WellFormed ∧ progressOk s.rcnt c k p

/-- The invariant of the machine. -/
structure State.Inv (s : State) : Prop where
  /-- The build parameters are in the ranges of R6. -/
  cfgOk : s.cfg.wf = true
  /-- There are exactly N state words (R9). -/
  stLength : s.st.length = s.n
  /-- MIXED holds N words (R24). -/
  mixedLength : s.mixed.length = s.n
  /-- The table memory is in its canonical form. -/
  tblOk : s.tbl.wf = true
  /-- Only entries of slots that exist are written (R10, R18). -/
  tblWithin : s.tbl.within s.n = true
  /-- ERRCODE is 0 exactly while ERR is 0 (R15, R101). -/
  errOk : s.errCode = .none ↔ s.err = false
  /-- The engine control state is consistent. -/
  eng : engOk s

/-- The state without what MIXED holds. -/
def State.withoutMixed (s : State) : State := { s with mixed := [] }

/-- The events that neither power the engine, nor reset it, nor are outside its port: host transactions and
the engine's own progress. -/
def isOrdinary : Event → Bool
  | .txn _ => true
  | .advance => true
  | .complete => true
  | .powerUp => false
  | .reset => false
  | .narrow _ _ => false

/-- Execution proceeds safely from `s` for `k` steps: no fault and no refusal. -/
def SafeFor (k : Nat) (s : State) : Prop := ∃ t, Sys2Proof.core.run k s = .next t

end Sys2Proof.Machine
end

