-- ==== Sys2Proof/Certificates/Slice0/Obligations.lean ====
section
/-! DEFINITION. The statements for the provers, each formalising a rule of the spec. Addresses are word
addresses of 10_state.md section 5; N is `s.n` (or `c.n`), the width the state's build parameters name. -/

open Sys2Proof Sys2Proof.Machine

/-! ### Encoding (30_encoding.md) -/

/-- Words written out from the tables of R46 and 95_test_vectors.md section 3.1. -/
def Obligations.SpecWordsDecode : Prop :=
  decodeCommand 0x00000000 = .ok .nop ∧ decodeCommand 0x000C0001 = .ok (.runF 12) ∧
  decodeCommand 0x80000011 = .ok (.runI 32768) ∧ decodeCommand 0x00000002 = .ok .subF ∧
  decodeCommand 0x00000012 = .ok .subI ∧ decodeCommand 0x00000003 = .ok .mixF ∧
  decodeCommand 0x00000013 = .ok .mixI ∧ decodeCommand 0x00000004 = .ok .clrst ∧
  decodeCommand 0x00000010 = .error .badcmd ∧ decodeCommand 0x00000014 = .error .badcmd ∧
  decodeCommand 0x00000021 = .error .badcmd ∧ decodeCommand 0x00010002 = .error .badcmd ∧
  decodeTransaction 0x0200000000 = .rd 0x02 ∧ decodeTransaction 0x43000C0001 = .wr 0x03 0x000C0001

/-- Decoding the encoding of a well-formed instruction gives it back, every operand at every value. -/
def Obligations.DecodeOfEncodeIsTheInstruction : Prop :=
  ∀ i : Instr, i.WellFormed → decodeTableWord (encode i).1 (encode i).2 = some i

/-- The (match, mask) pairs of R49: each command is exactly the words of its pair, and a word of no pair is
BADCMD. -/
def Obligations.CommandDecoderIsTheMatchMaskTable : Prop :=
  ∀ c : BusWord,
    (decodeCommand c = .ok .nop ↔ c &&& 0xFFFFFFFF = 0x00000000) ∧
    (∀ r, decodeCommand c = .ok (.runF r) ↔ c &&& 0x0000FFFF = 0x00000001 ∧ r = c.toNat / 65536) ∧
    (∀ r, decodeCommand c = .ok (.runI r) ↔ c &&& 0x0000FFFF = 0x00000011 ∧ r = c.toNat / 65536) ∧
    (decodeCommand c = .ok .subF ↔ c &&& 0xFFFFFFFF = 0x00000002) ∧
    (decodeCommand c = .ok .subI ↔ c &&& 0xFFFFFFFF = 0x00000012) ∧
    (decodeCommand c = .ok .mixF ↔ c &&& 0xFFFFFFFF = 0x00000003) ∧
    (decodeCommand c = .ok .mixI ↔ c &&& 0xFFFFFFFF = 0x00000013) ∧
    (decodeCommand c = .ok .clrst ↔ c &&& 0xFFFFFFFF = 0x00000004) ∧
    (decodeCommand c = .error .badcmd ↔
      c &&& 0x0000FFFF ≠ 0x00000001 ∧ c &&& 0x0000FFFF ≠ 0x00000011 ∧ c ≠ 0x00000000 ∧ c ≠ 0x00000002 ∧
      c ≠ 0x00000012 ∧ c ≠ 0x00000003 ∧ c ≠ 0x00000013 ∧ c ≠ 0x00000004)

/-- R50: the illegal words are the reserved opcodes, a nonzero RSV, a nonzero IMM outside RUN, and D = 1 with
NOP or CLRST; writing one to CMD while Idle records BADCMD and does nothing else. -/
def Obligations.IllegalCommandWordsAreBadcmd : Prop :=
  ∀ (c : BusWord) (s : State),
    (decodeCommand c = .error .badcmd ↔
      5 ≤ c.toNat % 16 ∨ c.toNat / 32 % 2048 ≠ 0 ∨ (c.toNat / 65536 ≠ 0 ∧ c.toNat % 16 ≠ 1) ∨
      (c.getLsbD 4 = true ∧ (c.toNat % 16 = 0 ∨ c.toNat % 16 = 4))) ∧
    (decodeCommand c = .error .badcmd → s.eng = .idle →
      exec (.wr 0x03 c) s =
        .next { s with err := true, errCode := if s.err then s.errCode else .badcmd, ack := true })

/-- R45: every (we, addr) pair is a valid transaction, a write carries its data, a read ignores its data bits; and
a command mnemonic, as the host issues it, is the write of its encoding to CMD (R51). -/
def Obligations.EveryTransactionDecodes : Prop :=
  (∀ (a : RegAddr) (v : BusWord) (t : Transaction),
    (t.toNat = 2 ^ 38 + a.toNat * 2 ^ 32 + v.toNat → decodeTransaction t = .wr a v) ∧
    (t.toNat = a.toNat * 2 ^ 32 + v.toNat → decodeTransaction t = .rd a)) ∧
  ∀ c : Command, c.WellFormed →
    decodeTransaction (hostTransaction c.toInstr) = .wr 0x03 (encodeCommand c) ∧
    decodeCommand (encodeCommand c) = .ok c

/-- R55: RD ID and RD PARAM, in every state. -/
def Obligations.IdentificationReads : Prop :=
  ∀ s : State,
    exec (.rd 0x00) s = .next { s with rdata := 0x53504E31, ack := true } ∧
    exec (.rd 0x07) s = .next { s with rdata := BitVec.ofNat 32 s.cfg.n, ack := true } ∧
    (s.cfg.width = .w8 → s.cfg.n = 8) ∧ (s.cfg.width = .w12 → s.cfg.n = 12) ∧ (s.cfg.width = .w16 → s.cfg.n = 16)

/-- R56 and R57: CTRL reads as its two enables, a write stores bits 0 and 1 in every engine state and `irq`
follows at once. -/
def Obligations.ControlRegisterAccess : Prop :=
  ∀ (s : State) (v : BusWord),
    exec (.rd 0x01) s =
      .next { s with rdata := BitVec.ofNat 32 (s.ieDone.toNat + 2 * s.ieErr.toNat), ack := true } ∧
    ∃ t, exec (.wr 0x01 v) s = .next t ∧
      t = { s with ieDone := v.getLsbD 0, ieErr := v.getLsbD 1, ack := true } ∧
      t.irq = ((v.getLsbD 0 && s.done) || (v.getLsbD 1 && s.err))

/-- R58: the STATUS word, with the error codes of R101, and reading it changes no flag. -/
def Obligations.StatusReadShowsTheFlags : Prop :=
  errBits .none = 0 ∧ errBits .badcmd = 1 ∧ errBits .busy = 2 ∧ errBits .badaddr = 3 ∧
  ∀ s : State, exec (.rd 0x02) s =
    .next { s with
      rdata := BitVec.ofNat 32
        ((if s.eng = .idle then 0 else 1) + 2 * s.done.toNat + 4 * s.err.toNat +
          16 * (errBits s.errCode).toNat)
      ack := true }

/-- R59: write 1 to clear, in every engine state; a completion after the write sets DONE again. -/
def Obligations.StatusWriteClearsWhatItNames : Prop :=
  ∀ (s : State) (v : BusWord), ∃ t,
    exec (.wr 0x02 v) s = .next t ∧
    t = { s with
      done := s.done && !v.getLsbD 1
      err := s.err && !v.getLsbD 2
      errCode := if v.getLsbD 2 then .none else s.errCode
      ack := true } ∧
    ∀ c k p, s.eng = .busy c k p → ∃ u, exec c.toInstr t = .next u ∧ u.done = true

/-- R53 and R60: a read of any address but TDATA changes nothing except what the port returns (and the model's own
count of draws), raises no error, and CMD and every reserved address return zero. -/
def Obligations.ReadsHaveNoSideEffect : Prop :=
  ∀ (a : RegAddr) (s : State),
    (a ≠ 0x05 → ∃ v d, exec (.rd a) s = .next { s with rdata := v, ack := true, draws := d }) ∧
    exec (.rd 0x03) s = .next { s with rdata := 0, ack := true } ∧
    ((8 ≤ a.toNat ∧ a.toNat < 16) ∨ (16 ≤ a.toNat ∧ s.n ≤ a.toNat % 16) →
      exec (.rd a) s = .next { s with rdata := 0, ack := true })

/-- R62: the TSEL word. -/
def Obligations.TableSelectRead : Prop :=
  ∀ s : State, exec (.rd 0x04) s =
    .next { s with
      rdata := BitVec.ofNat 32 (s.tselIndex.toNat + 65536 * s.tselSlot.toNat +
        1048576 * (if s.tselBank = .inverse then 1 else 0))
      ack := true }

/-- R63: a TSEL write stores its three fields while Idle and is refused while Busy. -/
def Obligations.TableSelectWrite : Prop :=
  ∀ (s : State) (v : BusWord),
    (s.eng = .idle → exec (.wr 0x04 v) s =
      .next { s with
        tselIndex := BitVec.ofNat 16 v.toNat
        tselSlot := BitVec.ofNat 4 (v.toNat / 65536)
        tselBank := if v.toNat / 1048576 % 2 = 1 then .inverse else .forward
        ack := true }) ∧
    (s.eng ≠ .idle → exec (.wr 0x04 v) s =
      .next { s with err := true, errCode := if s.err then s.errCode else .busy, ack := true })

/-- R64: a TDATA read. The value of an entry not written since power-up is free (log entry 2): the statement
names no value there, nor what becomes of the model's own count of draws. -/
def Obligations.TableDataRead : Prop :=
  ∀ s : State,
    (s.n ≤ s.tselSlot.toNat → exec (.rd 0x05) s =
      .next { s with err := true, errCode := if s.err then s.errCode else .badaddr, rdata := 0, ack := true }) ∧
    (s.tselSlot.toNat < s.n → s.eng ≠ .idle → exec (.rd 0x05) s =
      .next { s with err := true, errCode := if s.err then s.errCode else .busy, rdata := 0, ack := true }) ∧
    (s.tselSlot.toNat < s.n → s.eng = .idle → ∃ (w : Word) (d : Nat),
      exec (.rd 0x05) s =
        .next { s with
          tselIndex := BitVec.ofNat 16 ((s.tselIndex.toNat + 1) % 65536)
          draws := d
          rdata := BitVec.ofNat 32 w.toNat
          ack := true } ∧
      ∀ x, s.tbl.read (entryAddr s.tselBank s.tselSlot.toNat s.tselIndex) = some x → w = x)

/-- R65: a TDATA write, with every other entry of the table space as it was. -/
def Obligations.TableDataWrite : Prop :=
  ∀ (s : State) (v : BusWord),
    (s.n ≤ s.tselSlot.toNat → exec (.wr 0x05 v) s =
      .next { s with err := true, errCode := if s.err then s.errCode else .badaddr, ack := true }) ∧
    (s.tselSlot.toNat < s.n → s.eng ≠ .idle → exec (.wr 0x05 v) s =
      .next { s with err := true, errCode := if s.err then s.errCode else .busy, ack := true }) ∧
    (s.tselSlot.toNat < s.n → s.eng = .idle → ∃ m : Memory,
      exec (.wr 0x05 v) s =
        .next { s with tbl := m, tselIndex := BitVec.ofNat 16 ((s.tselIndex.toNat + 1) % 65536), ack := true } ∧
      m.read (entryAddr s.tselBank s.tselSlot.toNat s.tselIndex) = some (BitVec.ofNat 16 v.toNat) ∧
      ∀ a, a ≠ entryAddr s.tselBank s.tselSlot.toNat s.tselIndex → m.read a = s.tbl.read a)

/-- R65, its corner case: consecutive TDATA writes, up to a whole slot, fill consecutive entries from TSEL on, each
exactly once, leave INDEX advanced by their number modulo 65536, and change no other entry. -/
def Obligations.TableLoadFillsConsecutiveEntries : Prop :=
  ∀ (s : State) (vs : List BusWord), s.resetDone = true → s.eng = .idle → s.tselSlot.toNat < s.n →
    vs.length ≤ 65536 → s.events = vs.map (fun v => .txn (packTransaction true 0x05 v)) →
    ∃ t : State, Sys2Proof.core.run vs.length s = .next t ∧
      t.tselIndex = BitVec.ofNat 16 (s.tselIndex.toNat + vs.length) ∧ t.tselSlot = s.tselSlot ∧
      t.tselBank = s.tselBank ∧ t.st = s.st ∧ t.err = s.err ∧
      (∀ i, i < vs.length →
        t.tbl.read (entryAddr s.tselBank s.tselSlot.toNat (BitVec.ofNat 16 (s.tselIndex.toNat + i))) =
          some (BitVec.ofNat 16 (vs.getD i 0).toNat)) ∧
      (∀ a, (∀ i, i < vs.length →
          a ≠ entryAddr s.tselBank s.tselSlot.toNat (BitVec.ofNat 16 (s.tselIndex.toNat + i))) →
        t.tbl.read a = s.tbl.read a)

/-- R66: RD RCNT returns RCNT with no side effect, and while a RUN #R is Busy the value is at most R. -/
def Obligations.RoundCountRead : Prop :=
  ∀ s : State, ∃ t, exec (.rd 0x06) s = .next t ∧
    t = { s with rdata := BitVec.ofNat 32 s.rcnt.toNat, ack := true } ∧
    ∀ (r k : Nat) (p : Phase), s.Inv → (s.eng = .busy (.runF r) k p ∨ s.eng = .busy (.runI r) k p) →
      t.rdata.toNat ≤ r

/-- R66: after acceptance of a RUN #R, every count up to R can be what RCNT reads, by some progress of the engine. -/
def Obligations.RoundCountReadAdmitsEveryCount : Prop :=
  ∀ (s : State) (r v : Nat), r ≤ 65535 → v ≤ r → s.rcnt = 0 →
    (s.eng = .busy (.runF r) 0 .first ∨ s.eng = .busy (.runI r) 0 .first) →
    ∃ m t, exec (.rd 0x06) (s.advanceBy m) = .next t ∧ t.rdata.toNat = v ∧ t.isBusy = true

/-- R66: RCNT does not fall while one RUN is Busy, whatever the step. -/
def Obligations.RoundCountNeverFallsDuringARun : Prop :=
  ∀ (s t : State) (c : Command) (k k' : Nat) (p p' : Phase), s.Inv → step s = .next t →
    s.eng = .busy c k p → t.eng = .busy c k' p' → s.rcnt.toNat ≤ t.rcnt.toNat

/-- R67: RD STj returns the word while Idle; while Busy some word, of which nothing is said. -/
def Obligations.StateWordRead : Prop :=
  ∀ (s : State) (j : Nat), j < s.n →
    (s.eng = .idle → exec (.rd (BitVec.ofNat 6 (0x10 + j))) s =
      .next { s with rdata := BitVec.ofNat 32 (wordAt s.st j).toNat, ack := true }) ∧
    (s.eng ≠ .idle → ∃ (w : Word) (d : Nat), exec (.rd (BitVec.ofNat 6 (0x10 + j))) s =
      .next { s with rdata := BitVec.ofNat 32 w.toNat, ack := true, draws := d })

/-- R68: WR STj stores the low half in word j and no other while Idle, and is refused while Busy. -/
def Obligations.StateWordWrite : Prop :=
  ∀ (s : State) (j : Nat) (v : BusWord), j < s.n → s.st.length = s.n →
    (s.eng = .idle → ∃ w : List Word,
      exec (.wr (BitVec.ofNat 6 (0x10 + j)) v) s = .next { s with st := w, ack := true } ∧
      w.length = s.n ∧ wordAt w j = BitVec.ofNat 16 v.toNat ∧ ∀ i, i ≠ j → wordAt w i = wordAt s.st i) ∧
    (s.eng ≠ .idle → exec (.wr (BitVec.ofNat 6 (0x10 + j)) v) s =
      .next { s with err := true, errCode := if s.err then s.errCode else .busy, ack := true })

/-- R69: the row windows of both matrices, bit by bit, in every engine state. -/
def Obligations.MatrixRowReads : Prop :=
  ∀ (s : State) (j : Nat), j < s.n →
    (∃ v : BusWord, exec (.rd (BitVec.ofNat 6 (0x20 + j))) s = .next { s with rdata := v, ack := true } ∧
      ∀ i, v.getLsbD i = (decide (i < s.n) && matEntry s.cfg.matF j i)) ∧
    (∃ v : BusWord, exec (.rd (BitVec.ofNat 6 (0x30 + j))) s = .next { s with rdata := v, ack := true } ∧
      ∀ i, v.getLsbD i = (decide (i < s.n) && matEntry s.cfg.matI j i))

/-- R70: a write to a reserved address or a read-only register raises BADADDR and changes nothing, Busy or not. -/
def Obligations.ReservedAndReadOnlyWritesAreErrors : Prop :=
  ∀ (s : State) (a : RegAddr) (v : BusWord),
    (a = 0x00 ∨ a = 0x06 ∨ a = 0x07 ∨ (8 ≤ a.toNat ∧ a.toNat < 16) ∨ 32 ≤ a.toNat ∨
      (16 ≤ a.toNat ∧ s.n ≤ a.toNat % 16)) →
    exec (.wr a v) s =
      .next { s with err := true, errCode := if s.err then s.errCode else .badaddr, ack := true }

/-! ### Errors, interrupt, hazards (60_exceptions.md, 70_reset_and_hazards.md) -/

/-- R102: a transaction that raises an error has no other effect, a refused read returns zero, and the error is
one of the three causes; while ERR = 1 a further error leaves STATUS as it is. -/
def Obligations.RefusedTransactionHasNoOtherEffect : Prop :=
  ∀ (i : Instr) (s t : State), exec i s = .next t →
    (s.err = false → t.err = true → ∃ v,
      t = { s with err := true, errCode := t.errCode, rdata := v, ack := true } ∧ t.errCode ≠ .none ∧
      ((∃ a, i = .rd a) → v = 0) ∧ ((∀ a, i ≠ .rd a) → v = s.rdata)) ∧
    (s.err = true → (∀ v, i ≠ .wr 0x02 v) → t.err = true ∧ t.errCode = s.errCode)

/-- R103: BADADDR before BUSY before BADCMD, on an engine that is Busy with no error recorded. -/
def Obligations.ErrorPriority : Prop :=
  ∀ (s : State) (v : BusWord) (a : RegAddr), s.eng ≠ .idle → s.err = false →
    (s.n ≤ s.tselSlot.toNat →
      ∃ t u, exec (.rd 0x05) s = .next t ∧ t.errCode = .badaddr ∧ exec (.wr 0x05 v) s = .next u ∧
        u.errCode = .badaddr) ∧
    (16 ≤ a.toNat → s.n ≤ a.toNat % 16 → ∃ t, exec (.wr a v) s = .next t ∧ t.errCode = .badaddr) ∧
    (∃ t, exec (.wr 0x03 v) s = .next t ∧ t.errCode = .busy)

/-- R104: `irq` is the level of the enabled flags: it is low after reset, it follows a CTRL write at once, up or
down, with the flags as they were; acknowledging both flags clears it; the DONE term falls when a command is
accepted and rises when one completes. -/
def Obligations.InterruptLevel : Prop :=
  State.irq State.reset = false ∧
  ∀ s : State,
    (s.irq = true ↔ (s.ieDone = true ∧ s.done = true) ∨ (s.ieErr = true ∧ s.err = true)) ∧
    (∀ v : BusWord, ∃ t, exec (.wr 0x01 v) s = .next t ∧ t.done = s.done ∧ t.err = s.err ∧
      t.irq = ((v.getLsbD 0 && s.done) || (v.getLsbD 1 && s.err))) ∧
    (∀ v : BusWord, v.getLsbD 1 = true → v.getLsbD 2 = true →
      ∃ t, exec (.wr 0x02 v) s = .next t ∧ t.irq = false) ∧
    (∀ c : Command, c.WellFormed → s.eng = .idle → s.err = false →
      ∃ t, exec (.wr 0x03 (encodeCommand c)) s = .next t ∧ t.irq = false ∧ t.done = false) ∧
    (∀ c k p, s.eng = .busy c k p → s.ieDone = true → ∃ t, exec c.toInstr s = .next t ∧ t.irq = true)

/-- R117: what a Busy engine refuses, with BUSY and no other effect. -/
def Obligations.BusyEngineRefuses : Prop :=
  ∀ (s : State) (v : BusWord) (j : Nat), s.eng ≠ .idle → j < s.n →
    exec (.wr 0x03 v) s =
      .next { s with err := true, errCode := if s.err then s.errCode else .busy, ack := true } ∧
    exec (.wr (BitVec.ofNat 6 (0x10 + j)) v) s =
      .next { s with err := true, errCode := if s.err then s.errCode else .busy, ack := true } ∧
    exec (.wr 0x04 v) s =
      .next { s with err := true, errCode := if s.err then s.errCode else .busy, ack := true } ∧
    (s.tselSlot.toNat < s.n → exec (.wr 0x05 v) s =
      .next { s with err := true, errCode := if s.err then s.errCode else .busy, ack := true }) ∧
    (s.tselSlot.toNat < s.n → exec (.rd 0x05) s =
      .next { s with err := true, errCode := if s.err then s.errCode else .busy, rdata := 0, ack := true })

/-- R118: what a Busy engine does as an Idle one: every read but STATUS, TDATA and the state words, and every
write to CTRL, STATUS, a read-only register or a reserved address. -/
def Obligations.OtherAccessesDoNotSeeBusy : Prop :=
  ∀ (s : State) (a : RegAddr) (v : BusWord),
    (a ≠ 0x02 → a ≠ 0x05 → ¬ (16 ≤ a.toNat ∧ a.toNat < 16 + s.n) →
      ∃ t, exec (.rd a) s = .next t ∧ exec (.rd a) { s with eng := .idle } = .next { t with eng := .idle }) ∧
    (a ≠ 0x03 → a ≠ 0x04 → a ≠ 0x05 → ¬ (16 ≤ a.toNat ∧ a.toNat < 16 + s.n) →
      ∃ t, exec (.wr a v) s = .next t ∧ exec (.wr a v) { s with eng := .idle } = .next { t with eng := .idle })

/-! ### Commands (41_confusion.md, 42_diffusion.md, 43_round_control.md) -/

/-- R86: a CMD write is accepted while Idle if it decodes, refused with BADCMD if it does not, refused with BUSY
while a command runs. -/
def Obligations.CommandAcceptance : Prop :=
  ∀ (s : State) (c : BusWord),
    (s.eng ≠ .idle → exec (.wr 0x03 c) s =
      .next { s with err := true, errCode := if s.err then s.errCode else .busy, ack := true }) ∧
    (s.eng = .idle → decodeCommand c = .error .badcmd → exec (.wr 0x03 c) s =
      .next { s with err := true, errCode := if s.err then s.errCode else .badcmd, ack := true }) ∧
    (∀ x, s.eng = .idle → decodeCommand c = .ok x → exec (.wr 0x03 c) s =
      .next { s with
        done := false
        rcnt := if isRun x then 0 else s.rcnt
        eng := .busy x 0 .first
        ack := true })

/-- R87, with the frame of every command: the running command completes, the engine is Idle and DONE is 1, and
of the rest only ST, RCNT (by a RUN only), MIXED and the model's count of draws can differ. Every byte of the
table space reads as before. -/
def Obligations.RunningCommandCompletes : Prop :=
  ∀ (s : State) (c : Command) (k : Nat) (p : Phase), s.eng = .busy c k p →
    ∃ t, exec c.toInstr s = .next t ∧
      t = { s with st := t.st, rcnt := t.rcnt, mixed := t.mixed, draws := t.draws, done := true, eng := .idle } ∧
      (∀ a, t.tbl.read a = s.tbl.read a) ∧
      ((∀ r, c ≠ .runF r) → (∀ r, c ≠ .runI r) → t.rcnt = s.rcnt) ∧
      (s.Inv → ∀ r, (c = .runF r ∨ c = .runI r) → t.rcnt.toNat = r)

/-- R86 with R87: a command issued while Idle and then left to complete ends as the command does (the write
raises `ack`, nothing else differs). -/
def Obligations.IssuedCommandCompletesAsTheCommand : Prop :=
  ∀ (s : State) (c : Command), s.eng = .idle → c.WellFormed →
    ∃ t u v, exec (.wr 0x03 (encodeCommand c)) s = .next t ∧ t.eng = .busy c 0 .first ∧
      exec c.toInstr t = .next u ∧ exec c.toInstr s = .next v ∧ u = { v with ack := true }

/-- R51 with R86: a command issued while another runs is the CMD write that is refused. -/
def Obligations.CommandWhileAnotherRunsIsRefused : Prop :=
  ∀ (s : State) (c c' : Command) (k : Nat) (p : Phase), s.eng = .busy c' k p → c' ≠ c →
    exec c.toInstr s = exec (.wr 0x03 (encodeCommand c)) s ∧
    exec c.toInstr s = .next { s with err := true, errCode := if s.err then s.errCode else .busy, ack := true }

/-- R88: performing a command at once is exact: progress made before completion changes nothing of where the
command ends, in whatever state the command runs. -/
def Obligations.ProgressDoesNotChangeTheResult : Prop :=
  ∀ (s : State) (c : Command) (k m : Nat) (p : Phase), s.eng = .busy c k p →
    exec c.toInstr (s.advanceBy m) = exec c.toInstr s

/-- R96: NOP changes no data and produces a DONE event: issued while Idle it clears DONE and runs, issued while
Busy it is refused, and at its completion DONE is 1. With D = 1 its word is BADCMD. -/
def Obligations.NopOnlySetsDone : Prop :=
  decodeCommand 0x00000000 = .ok .nop ∧ decodeCommand 0x00000010 = .error .badcmd ∧
  ∀ s : State,
    ((s.eng = .idle ∨ ∃ k p, s.eng = .busy .nop k p) →
      exec .nop s = .next { s with done := true, eng := .idle }) ∧
    (s.eng = .idle → exec (.wr 0x03 0x00000000) s =
      .next { s with done := false, eng := .busy .nop 0 .first, ack := true }) ∧
    (s.eng ≠ .idle → exec (.wr 0x03 0x00000000) s =
      .next { s with err := true, errCode := if s.err then s.errCode else .busy, ack := true })

/-- R97: CLRST sets every state word to zero and nothing else but DONE; it is issued and refused as NOP is. With
D = 1 its word is BADCMD. -/
def Obligations.ClrstClearsEveryWord : Prop :=
  decodeCommand 0x00000004 = .ok .clrst ∧ decodeCommand 0x00000014 = .error .badcmd ∧
  ∀ s : State,
    ((s.eng = .idle ∨ ∃ k p, s.eng = .busy .clrst k p) →
      ∃ w : List Word, exec .clrst s = .next { s with st := w, done := true, eng := .idle } ∧
        w.length = s.n ∧ ∀ j, wordAt w j = 0) ∧
    (s.eng = .idle → exec (.wr 0x03 0x00000004) s =
      .next { s with done := false, eng := .busy .clrst 0 .first, ack := true }) ∧
    (s.eng ≠ .idle → exec (.wr 0x03 0x00000004) s =
      .next { s with err := true, errCode := if s.err then s.errCode else .busy, ack := true })

/-- R76: SUB.F, as it completes, or issued while Idle and completed. Word j becomes the entry of slot j of bank 0 at
index ST[j]; of an entry not written since power-up nothing is said (log entry 2), nor of the model's own count of
draws. RCNT, TSEL, the tables and the flags but DONE stay. -/
def Obligations.SubForwardLooksUpBankZero : Prop :=
  decodeCommand 0x00000002 = .ok .subF ∧
  ∀ s : State, (s.eng = .idle ∨ ∃ k p, s.eng = .busy .subF k p) →
    ∃ (w : List Word) (d : Nat), exec .subF s = .next { s with st := w, draws := d, done := true, eng := .idle } ∧
      w.length = s.n ∧
      ∀ j x, j < s.n → s.tbl.read (entryAddr .forward j (wordAt s.st j)) = some x → wordAt w j = x

/-- R77: SUB.I, the same with bank 1. -/
def Obligations.SubInverseLooksUpBankOne : Prop :=
  decodeCommand 0x00000012 = .ok .subI ∧
  ∀ s : State, (s.eng = .idle ∨ ∃ k p, s.eng = .busy .subI k p) →
    ∃ (w : List Word) (d : Nat), exec .subI s = .next { s with st := w, draws := d, done := true, eng := .idle } ∧
      w.length = s.n ∧
      ∀ j x, j < s.n → s.tbl.read (entryAddr .inverse j (wordAt s.st j)) = some x → wordAt w j = x

/-- R84 with R78 and R79: MIX.F. Bit k of word j becomes the GF(2) sum over i of MATF[j][i] AND bit k of ST[i]. -/
def Obligations.MixForwardIsTheMatrixProduct : Prop :=
  decodeCommand 0x00000003 = .ok .mixF ∧
  ∀ s : State, (s.eng = .idle ∨ ∃ k p, s.eng = .busy .mixF k p) →
    ∃ (w : List Word), exec .mixF s = .next { s with st := w, done := true, eng := .idle } ∧
      w.length = s.n ∧
      ∀ j k, j < s.n → (wordAt w j).getLsbD k =
        bitSum s.n fun i => matEntry s.cfg.matF j i && (wordAt s.st i).getLsbD k

/-- R85 with R78 and R79: MIX.I, the same with MATI. -/
def Obligations.MixInverseIsTheMatrixProduct : Prop :=
  decodeCommand 0x00000013 = .ok .mixI ∧
  ∀ s : State, (s.eng = .idle ∨ ∃ k p, s.eng = .busy .mixI k p) →
    ∃ (w : List Word), exec .mixI s = .next { s with st := w, done := true, eng := .idle } ∧
      w.length = s.n ∧
      ∀ j k, j < s.n → (wordAt w j).getLsbD k =
        bitSum s.n fun i => matEntry s.cfg.matI j i && (wordAt s.st i).getLsbD k

/-- R90: RUN.F #R, issued while Idle or just accepted, leaves RoundF^R of the state words and RCNT = R, although it
runs as 2R half-rounds through MIXED. MODEL'S CHOICE, not R90's: a lookup of an entry not written since power-up is
a free word (log entry 2), and these are the draws from `s.draws` on (log entry 3). -/
def Obligations.RunForwardIsTheRoundIterated : Prop :=
  (∀ r, r ≤ 65535 → decodeCommand (BitVec.ofNat 32 (r * 65536 + 1)) = .ok (.runF r)) ∧
  ∀ (s : State) (r : Nat), r ≤ 65535 → (s.eng = .idle ∨ (s.eng = .busy (.runF r) 0 .first ∧ s.rcnt = 0)) →
    ∃ (m : List Word) (d : Nat), exec (.runF r) s =
      .next { s with
        st := roundsF s.cfg s.tbl r s.draws s.st
        mixed := m
        draws := d
        rcnt := BitVec.ofNat 16 r
        done := true
        eng := .idle }

/-- R91: RUN.I #R, the same with RoundI. MODEL'S CHOICE, not R91's: a lookup of an entry not written since power-up
is a free word (log entry 2), and these are the draws from `s.draws` on (log entry 3). -/
def Obligations.RunInverseIsTheRoundIterated : Prop :=
  (∀ r, r ≤ 65535 → decodeCommand (BitVec.ofNat 32 (r * 65536 + 17)) = .ok (.runI r)) ∧
  ∀ (s : State) (r : Nat), r ≤ 65535 → (s.eng = .idle ∨ (s.eng = .busy (.runI r) 0 .first ∧ s.rcnt = 0)) →
    ∃ (m : List Word) (d : Nat), exec (.runI r) s =
      .next { s with
        st := roundsI s.cfg s.tbl r s.draws s.st
        mixed := m
        draws := d
        rcnt := BitVec.ofNat 16 r
        done := true
        eng := .idle }

/-- R92: a RUN of no rounds is the identity on the state words and reads no table entry. -/
def Obligations.RunOfNoRoundsIsTheIdentity : Prop :=
  ∀ s : State, s.eng = .idle →
    exec (.runF 0) s = .next { s with rcnt := 0, done := true } ∧
    exec (.runI 0) s = .next { s with rcnt := 0, done := true }

/-- R93: rounds compose; only RCNT differs. MODEL'S CHOICE, not the rule's: where an entry read has not been written,
its lookup is a free word and both runs take the same draws (log entry 3). -/
def Obligations.RoundsCompose : Prop :=
  ∀ (s : State) (a b : Nat), a + b ≤ 65535 → s.eng = .idle →
    (∃ t u v, exec (.runF a) s = .next t ∧ exec (.runF b) t = .next u ∧ exec (.runF (a + b)) s = .next v ∧
      u.st = v.st ∧ u.rcnt.toNat = b ∧ v.rcnt.toNat = a + b) ∧
    (∃ t u v, exec (.runI a) s = .next t ∧ exec (.runI b) t = .next u ∧ exec (.runI (a + b)) s = .next v ∧
      u.st = v.st ∧ u.rcnt.toNat = b ∧ v.rcnt.toNat = a + b)

/-- R94: the two layers one after the other are one round, in each direction, with RCNT untouched. MODEL'S CHOICE,
not the rule's: where an entry read has not been written, its lookup is a free word and both runs take the same draws
(log entry 3). -/
def Obligations.LayersMakeARound : Prop :=
  ∀ s : State, s.eng = .idle →
    (∃ t u v, exec .subF s = .next t ∧ exec .mixF t = .next u ∧ exec (.runF 1) s = .next v ∧
      u.st = v.st ∧ u.rcnt = s.rcnt) ∧
    (∃ t u v, exec .mixI s = .next t ∧ exec .subI t = .next u ∧ exec (.runI 1) s = .next v ∧
      u.st = v.st ∧ u.rcnt = s.rcnt)

/-- R75: bank 1 undoes bank 0 when its tables invert those of bank 0, and the other way round. Every draw number
is allowed, since a lookup of a written entry uses none. -/
def Obligations.InverseTablesUndoConfusion : Prop :=
  ∀ (m : Memory) (n d e : Nat) (s : List Word), s.length = n →
    ((∀ j, j < n → ∀ w, ∃ y, m.read (entryAddr .forward j w) = some y ∧ m.read (entryAddr .inverse j y) = some w) →
      subVec m n .inverse e (subVec m n .forward d s) = s) ∧
    ((∀ j, j < n → ∀ w, ∃ y, m.read (entryAddr .inverse j w) = some y ∧ m.read (entryAddr .forward j y) = some w) →
      subVec m n .forward e (subVec m n .inverse d s) = s)

/-- R80: MixLayer is linear, composes as the matrix product, and is the identity for the identity matrix. -/
def Obligations.DiffusionIsLinear : Prop :=
  ∀ (n : Nat) (a b c : List Word) (u v : List Word), u.length = n → v.length = n →
    (∀ j, j < n → wordAt (mixVec n a (tabulate n fun i => wordAt u i ^^^ wordAt v i)) j
      = wordAt (mixVec n a u) j ^^^ wordAt (mixVec n a v) j) ∧
    (∀ j, wordAt (mixVec n a (List.replicate n 0)) j = 0) ∧
    ((∀ j, j < n → ∀ i, i < n → matEntry c j i = bitSum n fun k => matEntry a j k && matEntry b k i) →
      mixVec n a (mixVec n b v) = mixVec n c v) ∧
    ((∀ j, j < n → ∀ i, i < n → matEntry a j i = decide (j = i)) → mixVec n a v = v)

/-- R81: if MATI · MATF = I over GF(2), MixLayer of MATI undoes that of MATF, and, the matrices being square, also
MATF · MATI = I and the other order. -/
def Obligations.InverseMatrixUndoesDiffusion : Prop :=
  ∀ (n : Nat) (f g : List Word), n ≤ 16 →
    (∀ j, j < n → ∀ i, i < n → (bitSum n fun k => matEntry g j k && matEntry f k i) = decide (j = i)) →
    (∀ j, j < n → ∀ i, i < n → (bitSum n fun k => matEntry f j k && matEntry g k i) = decide (j = i)) ∧
    ∀ v : List Word, v.length = n → mixVec n g (mixVec n f v) = v ∧ mixVec n f (mixVec n g v) = v

/-- R82: a matrix that no matrix inverts makes two distinct states collide; a zero row makes its output word zero,
a zero column makes its input word unused. -/
def Obligations.SingularMatrixCollides : Prop :=
  ∀ (n : Nat) (m : List Word), n ≤ 16 →
    ((¬ ∃ g : List Word, ∀ j, j < n → ∀ i, i < n →
        (bitSum n fun k => matEntry g j k && matEntry m k i) = decide (j = i)) →
      ∃ v w : List Word, v.length = n ∧ w.length = n ∧ v ≠ w ∧ mixVec n m v = mixVec n m w) ∧
    (∀ j v, j < n → (∀ i, i < n → matEntry m j i = false) → wordAt (mixVec n m v) j = 0) ∧
    (∀ i x v, (∀ j, j < n → matEntry m j i = false) → mixVec n m (v.set i x) = mixVec n m v)

/-- R95: with MATI · MATF = I, and bank 1 inverse to bank 0, a forward round is undone by an inverse round, and
RUN.F #R by RUN.I #R; with the tables inverse the other way round, RUN.I #R is undone by RUN.F #R. -/
def Obligations.DecryptionUndoesEncryption : Prop :=
  ∀ (s : State) (r : Nat), r ≤ 65535 → s.eng = .idle → s.st.length = s.n →
    (∀ j, j < s.n → ∀ i, i < s.n →
      (bitSum s.n fun k => matEntry s.cfg.matI j k && matEntry s.cfg.matF k i) = decide (j = i)) →
    ((∀ j, j < s.n → ∀ w, ∃ y, s.tbl.read (entryAddr .forward j w) = some y ∧
        s.tbl.read (entryAddr .inverse j y) = some w) →
      (∀ d e v, v.length = s.n → roundI s.cfg s.tbl e (roundF s.cfg s.tbl d v) = v) ∧
      ∃ t u, exec (.runF r) s = .next t ∧ exec (.runI r) t = .next u ∧ u.st = s.st ∧ u.rcnt.toNat = r) ∧
    ((∀ j, j < s.n → ∀ w, ∃ y, s.tbl.read (entryAddr .inverse j w) = some y ∧
        s.tbl.read (entryAddr .forward j y) = some w) →
      ∃ t u, exec (.runI r) s = .next t ∧ exec (.runF r) t = .next u ∧ u.st = s.st ∧ u.rcnt.toNat = r)

/-- Reset leaves the invariant, for every legal build and for the engine of `State.reset`. -/
def Obligations.InvariantAtReset : Prop :=
  (∀ c : Config, c.wf = true → (State.resetOf c).Inv) ∧ State.reset.Inv

/-- Every step keeps the invariant, from every state that has it. -/
def Obligations.StepKeepsTheInvariant : Prop :=
  ∀ s t : State, s.Inv → step s = .next t → t.Inv

/-- R114: the reset edge, in every state, before and after the first reset: the values of the rule's table, the
tables and the build parameters as they were. The values of MIXED and `rdata` are the model's (log entries 1
and 7) and are not stated. -/
def Obligations.ResetEdge : Prop :=
  ∀ (s : State) (rest : List Event), s.events = .reset :: rest →
    ∃ t, step s = .next t ∧ t.st = List.replicate s.n 0 ∧ t.tbl = s.tbl ∧ t.cfg = s.cfg ∧
      t.ieDone = false ∧ t.ieErr = false ∧ t.isBusy = false ∧ t.done = false ∧ t.err = false ∧
      t.errCode = .none ∧ t.tselIndex = 0 ∧ t.tselSlot = 0 ∧ t.tselBank = .forward ∧ t.rcnt = 0 ∧
      t.eng = .idle ∧ t.irq = false ∧ t.ack = false ∧ t.resetDone = true ∧ t.events = rest

/-- R115 with U4, and R33: before the first reset no transaction is allowed and the engine does nothing defined;
an access that is not one full word is refused. -/
def Obligations.NothingRunsBeforeReset : Prop :=
  ∀ (s : State) (rest : List Event),
    (∃ t, step { s with events := .powerUp :: rest } = .next t ∧ t.resetDone = false ∧ (∀ a, t.tbl.read a = none)) ∧
    (∀ o n, step { s with events := .narrow o n :: rest } = .refused .notFullWordAccess) ∧
    (s.resetDone = false →
      (∀ w, step { s with events := .txn w :: rest } = .refused .transactionBeforeReset) ∧
      step { s with events := .complete :: rest } = .fault .behaviourBeforeReset ∧
      step { s with events := .advance :: rest } = .fault .behaviourBeforeReset ∧
      step { s with events := [] } = .fault .behaviourBeforeReset)

/-- A step runs the decoded instruction: a transaction that takes effect, the command in ENG when the engine
completes (by event, or because no event is left), and the instruction of a table word that has been loaded.
MODEL'S CHOICE: that a step takes the next event of a list, and that a running command completes when none is left,
are log entry 6; what `withFetchWord` places, over a running command too, is log entry 10. -/
def Obligations.StepRunsTheDecodedInstruction : Prop :=
  ∀ (s : State) (rest : List Event), s.resetDone = true →
    (∀ w, s.events = .txn w :: rest →
      step s = exec (decodeTransaction w) { s with events := rest, ack := false }) ∧
    (∀ c k p, s.events = .complete :: rest → s.eng = .busy c k p →
      step s = exec c.toInstr { s with events := rest, ack := false }) ∧
    (∀ c k p, s.events = [] → s.eng = .busy c k p → step s = exec c.toInstr { s with events := [], ack := false }) ∧
    (s.events = [] → s.eng = .idle → step s = .next { s with ack := false }) ∧
    (∀ w c, decodeCommand (BitVec.ofNat 32 w) = .ok c → step (s.withFetchWord 32 w) =
      exec c.toInstr { s.accept c with ack := false }) ∧
    (∀ w, step (s.withFetchWord 40 w) = exec (decodeTransaction (BitVec.ofNat 39 w)) { s with ack := false })

/-- A Busy engine that is left to ordinary events is Idle within one step more than there are events. R87 says that
a command completes, R88 that the completion is weakly fair. MODEL'S CHOICE (log entry 6): the bound, and that the
command completes when no event is left, are the model's form of that fairness. -/
def Obligations.EveryCommandCompletes : Prop :=
  ∀ s : State, s.resetDone = true → s.isBusy = true → (∀ e, e ∈ s.events → isOrdinary e = true) →
    ∃ k t, k ≤ s.events.length + 1 ∧ Sys2Proof.core.run k s = .next t ∧ State.isBusy t = false

/-- R27 and R102: no ordinary event ever stops the machine, and every transaction is acknowledged, an erroneous
one too. -/
def Obligations.OrdinaryRunsNeverStop : Prop :=
  (∀ (s : State) (k : Nat), s.resetDone = true → (∀ e, e ∈ s.events → isOrdinary e = true) → SafeFor k s) ∧
  ∀ (s : State) (w : Transaction) (rest : List Event), s.resetDone = true → s.events = .txn w :: rest →
    ∃ t, step s = .next t ∧ t.ack = true ∧ t.events = rest

/-- R12: no step changes the build parameters, MATF and MATI among them. -/
def Obligations.BuildParametersAreConstant : Prop :=
  ∀ s t : State, step s = .next t → t.cfg = s.cfg

/-- R29: no instruction writes the table space but a TDATA write, which while Idle writes the selected entry of an
existing slot and no other. -/
def Obligations.OnlyTableDataWritesTheTables : Prop :=
  ∀ (i : Instr) (s t : State) (a : Nat), exec i s = .next t → t.tbl.read a ≠ s.tbl.read a →
    (∃ v, i = .wr 0x05 v) ∧ s.eng = .idle ∧ s.tselSlot.toNat < s.n ∧
      a = entryAddr s.tselBank s.tselSlot.toNat s.tselIndex

/-- R38(c): while the engine is Busy no transaction reaches ST, the tables, TSEL, RCNT or the running command. -/
def Obligations.BusyEngineIsOutOfReach : Prop :=
  ∀ (i : Instr) (s t : State), s.eng ≠ .idle → ((∃ a, i = .rd a) ∨ ∃ a v, i = .wr a v) → exec i s = .next t →
    t = { s with ieDone := t.ieDone, ieErr := t.ieErr, done := t.done, err := t.err, errCode := t.errCode,
                 rdata := t.rdata, ack := true, draws := t.draws }

/-- R24, "No internal state is retained between calls": what MIXED holds outside a round is unobservable. Two runs
that differ in it alone agree in everything else, for any number of steps. -/
def Obligations.MixedIsUnobservable : Prop :=
  ∀ (s : State) (m : List Word) (k : Nat), (∀ c j, s.eng ≠ .busy c j .second) →
    match Sys2Proof.core.run k s, Sys2Proof.core.run k { s with mixed := m } with
    | .next t, .next u => State.withoutMixed t = State.withoutMixed u
    | .fault a, .fault b => a = b
    | .refused a, .refused b => a = b
    | _, _ => False

/-- Hazard H1 of 95_test_vectors.md section 3.7: after RUN.F #1 is issued, a NOP issued at once is refused with BUSY,
and a NOP issued after the completion is accepted; the model has both runs. -/
def Obligations.BothOrdersOfCompletionAreAdmitted : Prop :=
  ∀ s : State, s.resetDone = true → s.eng = .idle → s.err = false →
    (∃ t, Sys2Proof.core.run 2 { s with events := [issue (.runF 1), issue .nop] } = .next t ∧
      State.err t = true ∧ State.errCode t = .busy ∧ State.isBusy t = true) ∧
    (∃ t, Sys2Proof.core.run 3 { s with events := [issue (.runF 1), .complete, issue .nop] } = .next t ∧
      State.err t = false ∧ State.eng t = .busy .nop 0 .first)
end

