-- ==== Sys2Proof/Laws/Memory.lean ====
section
/-! SUPPORT. The laws of the table memory: read after write, the canonical form, and that a canonical memory is
determined by what it reads. -/

namespace Sys2Proof.Machine

theorem Memory.read_write_same (m : Memory) (a : Nat) (v : Word) : (m.write a v).read a = some v := by
  induction m with
  | nil => simp [Memory.write, Memory.read]
  | cons p m ih =>
    obtain ⟨k, w⟩ := p
    by_cases h₁ : k < a
    · simp only [Memory.write, h₁, if_true, Memory.read, if_neg (Nat.ne_of_lt h₁), ih]
    · by_cases h₂ : k = a <;> simp [Memory.write, Memory.read, h₁, h₂]

theorem Memory.read_write_of_ne (m : Memory) {a b : Nat} (v : Word) (h : b ≠ a) :
    (m.write a v).read b = m.read b := by
  induction m with
  | nil => simp [Memory.write, Memory.read, Ne.symm h]
  | cons p m ih =>
    obtain ⟨k, w⟩ := p
    by_cases h₁ : k < a
    · simp only [Memory.write, h₁, if_true, Memory.read, ih]
    · by_cases h₂ : k = a
      · subst h₂
        simp [Memory.write, Memory.read, Ne.symm h]
      · simp [Memory.write, Memory.read, h₁, h₂, Ne.symm h]

/-- A lower bound on the addresses may be relaxed. -/
theorem Memory.rising_mono {lo lo' : Nat} {m : Memory} (h : lo' ≤ lo) (hm : m.rising lo = true) :
    m.rising lo' = true := by
  cases m with
  | nil => rfl
  | cons p m =>
    simp only [Memory.rising, Bool.and_eq_true, decide_eq_true_eq] at hm ⊢
    exact ⟨by omega, hm.2⟩

theorem Memory.rising_write {lo a : Nat} {m : Memory} (v : Word) (hlo : lo ≤ a) (hm : m.rising lo = true) :
    (m.write a v).rising lo = true := by
  induction m generalizing lo with
  | nil => simp [Memory.write, Memory.rising, hlo]
  | cons p m ih =>
    obtain ⟨k, w⟩ := p
    simp only [Memory.rising, Bool.and_eq_true, decide_eq_true_eq] at hm
    by_cases h₁ : k < a
    · simp [Memory.write, h₁, Memory.rising, hm.1, ih (lo := k + 1) (by omega) hm.2]
    · by_cases h₂ : k = a
      · subst h₂
        simp [Memory.write, Memory.rising, hm]
      · have : a + 1 ≤ k := by omega
        simp [Memory.write, h₁, h₂, Memory.rising, hlo, this, hm.2]

/-- A write keeps the canonical form. -/
theorem Memory.wf_write {m : Memory} (a : Nat) (v : Word) (hm : m.wf = true) : (m.write a v).wf = true :=
  Memory.rising_write v (Nat.zero_le a) hm

theorem Memory.all_write {p : Nat × Word → Bool} {m : Memory} {a : Nat} {v : Word} (h : p (a, v) = true)
    (hm : List.all m p = true) : List.all (m.write a v) p = true := by
  induction m with
  | nil => simp [Memory.write, h]
  | cons q m ih =>
    obtain ⟨k, w⟩ := q
    simp only [List.all_cons, Bool.and_eq_true] at hm
    by_cases h₁ : k < a
    · simp [Memory.write, h₁, hm.1, ih hm.2]
    · by_cases h₂ : k = a
      · simp [Memory.write, h₂, h, hm.2]
      · simp [Memory.write, h₁, h₂, h, hm]

/-- Nothing below the lower bound is listed. -/
theorem Memory.read_of_lt {lo a : Nat} {m : Memory} (hm : m.rising lo = true) (h : a < lo) : m.read a = none := by
  induction m generalizing lo with
  | nil => rfl
  | cons p m ih =>
    obtain ⟨k, w⟩ := p
    simp only [Memory.rising, Bool.and_eq_true, decide_eq_true_eq] at hm
    have : k ≠ a := by omega
    simp [Memory.read, this, ih hm.2 (by omega)]

/-- Two canonical memories that read alike at every address are the same list. -/
theorem Memory.eq_of_read {lo : Nat} {m m' : Memory} (hm : m.rising lo = true) (hm' : m'.rising lo = true)
    (h : ∀ a, m.read a = m'.read a) : m = m' := by
  induction m generalizing lo m' with
  | nil =>
    cases m' with
    | nil => rfl
    | cons p m' => simpa [Memory.read] using h p.1
  | cons p m ih =>
    obtain ⟨k, w⟩ := p
    cases m' with
    | nil => simpa [Memory.read] using h k
    | cons p' m' =>
      obtain ⟨k', w'⟩ := p'
      simp only [Memory.rising, Bool.and_eq_true, decide_eq_true_eq] at hm hm'
      have hk : k = k' := by
        rcases Nat.lt_trichotomy k k' with hlt | heq | hgt
        · have hne : k' ≠ k := by omega
          simpa [Memory.read, hne, Memory.read_of_lt hm'.2 (show k < k' + 1 by omega)] using h k
        · exact heq
        · have hne : k ≠ k' := by omega
          simpa [Memory.read, hne, Memory.read_of_lt hm.2 (show k' < k + 1 by omega)] using h k'
      subst hk
      have hw : w = w' := by simpa [Memory.read] using h k
      subst hw
      rw [ih hm.2 hm'.2 fun a => ?_]
      by_cases ha : k = a
      · subst ha
        rw [Memory.read_of_lt hm.2 (by omega), Memory.read_of_lt hm'.2 (by omega)]
      · simpa [Memory.read, ha] using h a

/-- What a memory listing `f` at every address of a list of addresses reads. -/
theorem Memory.read_map (l : List Nat) (f : Nat → Word) (a : Nat) :
    Memory.read (l.map fun k => (k, f k)) a = if a ∈ l then some (f a) else none := by
  induction l with
  | nil => rfl
  | cons k l ih =>
    by_cases h : k = a
    · simp [Memory.read, h]
    · simp [Memory.read, h, ih, Ne.symm h]

/-! ### Entry addresses -/

theorem entrySlot_entryAddr (b : Dir) {j : Nat} (x : Word) (hj : j < 16) : entrySlot (entryAddr b j x) = j := by
  have := x.isLt
  unfold entrySlot entryAddr
  cases b <;> simp only [dirNum] <;> omega

theorem entryAddr_lt (b : Dir) {j : Nat} (x : Word) (hj : j < 16) : entryAddr b j x < 2 * 16 * 65536 := by
  have := x.isLt
  unfold entryAddr
  cases b <;> simp only [dirNum] <;> omega

/-- Distinct entries have distinct addresses. -/
theorem entryAddr_inj {b b' : Dir} {j j' : Nat} {x x' : Word} (hj : j < 16) (hj' : j' < 16)
    (h : entryAddr b j x = entryAddr b' j' x') : b = b' ∧ j = j' ∧ x = x' := by
  have h₁ := x.isLt
  have h₂ := x'.isLt
  unfold entryAddr at h
  cases b <;> cases b' <;> simp only [dirNum] at h <;>
    first
      | exact ⟨rfl, by omega, BitVec.eq_of_toNat_eq (by omega)⟩
      | omega

/-- A write to an existing slot stays within the table space. -/
theorem Memory.within_write {n : Nat} {m : Memory} (b : Dir) {j : Nat} (x v : Word) (hj : j < n) (hj' : j < 16)
    (hm : m.within n = true) : (m.write (entryAddr b j x) v).within n = true := by
  refine Memory.all_write ?_ hm
  simp [entryAddr_lt b x hj', entrySlot_entryAddr b x hj', hj]

/-- A lookup of a written entry returns it, whatever the draw. -/
theorem Memory.lookup_of_read {m : Memory} {b : Dir} {j : Nat} {x w : Word} (d : Nat)
    (h : m.read (entryAddr b j x) = some w) : m.lookup b j x d = w := by
  simp [Memory.lookup, h]

/-- A lookup of an unwritten entry is the draw. -/
theorem Memory.lookup_of_unwritten {m : Memory} {b : Dir} {j : Nat} {x : Word} (d : Nat)
    (h : m.read (entryAddr b j x) = none) : m.lookup b j x d = Config.freeWord d := by
  simp [Memory.lookup, h]

end Sys2Proof.Machine
end

