-- ==== Sys2Proof/Laws/State.lean ====
section
/-! SUPPORT. One lemma per field per named update of State: the field's new value where the update writes it,
the old one where it does not. -/

namespace Sys2Proof.Machine

/-! ### accept -/

@[simp] theorem State.accept_cfg (c : Command) (s : State) : (s.accept c).cfg = s.cfg := rfl
@[simp] theorem State.accept_st (c : Command) (s : State) : (s.accept c).st = s.st := rfl
@[simp] theorem State.accept_tbl (c : Command) (s : State) : (s.accept c).tbl = s.tbl := rfl
@[simp] theorem State.accept_ieDone (c : Command) (s : State) : (s.accept c).ieDone = s.ieDone := rfl
@[simp] theorem State.accept_ieErr (c : Command) (s : State) : (s.accept c).ieErr = s.ieErr := rfl
@[simp] theorem State.accept_done (c : Command) (s : State) : (s.accept c).done = false := rfl
@[simp] theorem State.accept_err (c : Command) (s : State) : (s.accept c).err = s.err := rfl
@[simp] theorem State.accept_errCode (c : Command) (s : State) : (s.accept c).errCode = s.errCode := rfl
@[simp] theorem State.accept_tselIndex (c : Command) (s : State) : (s.accept c).tselIndex = s.tselIndex := rfl
@[simp] theorem State.accept_tselSlot (c : Command) (s : State) : (s.accept c).tselSlot = s.tselSlot := rfl
@[simp] theorem State.accept_tselBank (c : Command) (s : State) : (s.accept c).tselBank = s.tselBank := rfl
@[simp] theorem State.accept_rcnt (c : Command) (s : State) : (s.accept c).rcnt = if isRun c then 0 else s.rcnt := rfl
@[simp] theorem State.accept_eng (c : Command) (s : State) : (s.accept c).eng = .busy c 0 .first := rfl
@[simp] theorem State.accept_mixed (c : Command) (s : State) : (s.accept c).mixed = s.mixed := rfl
@[simp] theorem State.accept_rdata (c : Command) (s : State) : (s.accept c).rdata = s.rdata := rfl
@[simp] theorem State.accept_ack (c : Command) (s : State) : (s.accept c).ack = s.ack := rfl
@[simp] theorem State.accept_resetDone (c : Command) (s : State) : (s.accept c).resetDone = s.resetDone := rfl
@[simp] theorem State.accept_events (c : Command) (s : State) : (s.accept c).events = s.events := rfl
@[simp] theorem State.accept_draws (c : Command) (s : State) : (s.accept c).draws = s.draws := rfl
@[simp] theorem State.accept_n (c : Command) (s : State) : (s.accept c).n = s.n := rfl

/-! ### finish -/

@[simp] theorem State.finish_cfg (s : State) : (s.finish).cfg = s.cfg := rfl
@[simp] theorem State.finish_st (s : State) : (s.finish).st = s.st := rfl
@[simp] theorem State.finish_tbl (s : State) : (s.finish).tbl = s.tbl := rfl
@[simp] theorem State.finish_ieDone (s : State) : (s.finish).ieDone = s.ieDone := rfl
@[simp] theorem State.finish_ieErr (s : State) : (s.finish).ieErr = s.ieErr := rfl
@[simp] theorem State.finish_done (s : State) : (s.finish).done = true := rfl
@[simp] theorem State.finish_err (s : State) : (s.finish).err = s.err := rfl
@[simp] theorem State.finish_errCode (s : State) : (s.finish).errCode = s.errCode := rfl
@[simp] theorem State.finish_tselIndex (s : State) : (s.finish).tselIndex = s.tselIndex := rfl
@[simp] theorem State.finish_tselSlot (s : State) : (s.finish).tselSlot = s.tselSlot := rfl
@[simp] theorem State.finish_tselBank (s : State) : (s.finish).tselBank = s.tselBank := rfl
@[simp] theorem State.finish_rcnt (s : State) : (s.finish).rcnt = s.rcnt := rfl
@[simp] theorem State.finish_eng (s : State) : (s.finish).eng = .idle := rfl
@[simp] theorem State.finish_mixed (s : State) : (s.finish).mixed = s.mixed := rfl
@[simp] theorem State.finish_rdata (s : State) : (s.finish).rdata = s.rdata := rfl
@[simp] theorem State.finish_ack (s : State) : (s.finish).ack = s.ack := rfl
@[simp] theorem State.finish_resetDone (s : State) : (s.finish).resetDone = s.resetDone := rfl
@[simp] theorem State.finish_events (s : State) : (s.finish).events = s.events := rfl
@[simp] theorem State.finish_draws (s : State) : (s.finish).draws = s.draws := rfl
@[simp] theorem State.finish_n (s : State) : (s.finish).n = s.n := rfl

/-! ### raise -/

@[simp] theorem State.raise_cfg (e : ErrCode) (s : State) : (s.raise e).cfg = s.cfg := rfl
@[simp] theorem State.raise_st (e : ErrCode) (s : State) : (s.raise e).st = s.st := rfl
@[simp] theorem State.raise_tbl (e : ErrCode) (s : State) : (s.raise e).tbl = s.tbl := rfl
@[simp] theorem State.raise_ieDone (e : ErrCode) (s : State) : (s.raise e).ieDone = s.ieDone := rfl
@[simp] theorem State.raise_ieErr (e : ErrCode) (s : State) : (s.raise e).ieErr = s.ieErr := rfl
@[simp] theorem State.raise_done (e : ErrCode) (s : State) : (s.raise e).done = s.done := rfl
@[simp] theorem State.raise_err (e : ErrCode) (s : State) : (s.raise e).err = true := rfl
@[simp] theorem State.raise_errCode (e : ErrCode) (s : State) : (s.raise e).errCode = if s.err then s.errCode else e := rfl
@[simp] theorem State.raise_tselIndex (e : ErrCode) (s : State) : (s.raise e).tselIndex = s.tselIndex := rfl
@[simp] theorem State.raise_tselSlot (e : ErrCode) (s : State) : (s.raise e).tselSlot = s.tselSlot := rfl
@[simp] theorem State.raise_tselBank (e : ErrCode) (s : State) : (s.raise e).tselBank = s.tselBank := rfl
@[simp] theorem State.raise_rcnt (e : ErrCode) (s : State) : (s.raise e).rcnt = s.rcnt := rfl
@[simp] theorem State.raise_eng (e : ErrCode) (s : State) : (s.raise e).eng = s.eng := rfl
@[simp] theorem State.raise_mixed (e : ErrCode) (s : State) : (s.raise e).mixed = s.mixed := rfl
@[simp] theorem State.raise_rdata (e : ErrCode) (s : State) : (s.raise e).rdata = s.rdata := rfl
@[simp] theorem State.raise_ack (e : ErrCode) (s : State) : (s.raise e).ack = s.ack := rfl
@[simp] theorem State.raise_resetDone (e : ErrCode) (s : State) : (s.raise e).resetDone = s.resetDone := rfl
@[simp] theorem State.raise_events (e : ErrCode) (s : State) : (s.raise e).events = s.events := rfl
@[simp] theorem State.raise_draws (e : ErrCode) (s : State) : (s.raise e).draws = s.draws := rfl
@[simp] theorem State.raise_n (e : ErrCode) (s : State) : (s.raise e).n = s.n := rfl
@[simp] theorem State.raise_isBusy (e : ErrCode) (s : State) : (s.raise e).isBusy = s.isBusy := rfl

/-! ### ackErr -/

@[simp] theorem State.ackErr_cfg (b : Bool) (s : State) : (s.ackErr b).cfg = s.cfg := rfl
@[simp] theorem State.ackErr_st (b : Bool) (s : State) : (s.ackErr b).st = s.st := rfl
@[simp] theorem State.ackErr_tbl (b : Bool) (s : State) : (s.ackErr b).tbl = s.tbl := rfl
@[simp] theorem State.ackErr_ieDone (b : Bool) (s : State) : (s.ackErr b).ieDone = s.ieDone := rfl
@[simp] theorem State.ackErr_ieErr (b : Bool) (s : State) : (s.ackErr b).ieErr = s.ieErr := rfl
@[simp] theorem State.ackErr_done (b : Bool) (s : State) : (s.ackErr b).done = s.done := rfl
@[simp] theorem State.ackErr_err (b : Bool) (s : State) : (s.ackErr b).err = if b then false else s.err := rfl
@[simp] theorem State.ackErr_errCode (b : Bool) (s : State) : (s.ackErr b).errCode = if b then .none else s.errCode := rfl
@[simp] theorem State.ackErr_tselIndex (b : Bool) (s : State) : (s.ackErr b).tselIndex = s.tselIndex := rfl
@[simp] theorem State.ackErr_tselSlot (b : Bool) (s : State) : (s.ackErr b).tselSlot = s.tselSlot := rfl
@[simp] theorem State.ackErr_tselBank (b : Bool) (s : State) : (s.ackErr b).tselBank = s.tselBank := rfl
@[simp] theorem State.ackErr_rcnt (b : Bool) (s : State) : (s.ackErr b).rcnt = s.rcnt := rfl
@[simp] theorem State.ackErr_eng (b : Bool) (s : State) : (s.ackErr b).eng = s.eng := rfl
@[simp] theorem State.ackErr_mixed (b : Bool) (s : State) : (s.ackErr b).mixed = s.mixed := rfl
@[simp] theorem State.ackErr_rdata (b : Bool) (s : State) : (s.ackErr b).rdata = s.rdata := rfl
@[simp] theorem State.ackErr_ack (b : Bool) (s : State) : (s.ackErr b).ack = s.ack := rfl
@[simp] theorem State.ackErr_resetDone (b : Bool) (s : State) : (s.ackErr b).resetDone = s.resetDone := rfl
@[simp] theorem State.ackErr_events (b : Bool) (s : State) : (s.ackErr b).events = s.events := rfl
@[simp] theorem State.ackErr_draws (b : Bool) (s : State) : (s.ackErr b).draws = s.draws := rfl
@[simp] theorem State.ackErr_n (b : Bool) (s : State) : (s.ackErr b).n = s.n := rfl
@[simp] theorem State.ackErr_isBusy (b : Bool) (s : State) : (s.ackErr b).isBusy = s.isBusy := rfl

/-! ### ackDone -/

@[simp] theorem State.ackDone_cfg (b : Bool) (s : State) : (s.ackDone b).cfg = s.cfg := rfl
@[simp] theorem State.ackDone_st (b : Bool) (s : State) : (s.ackDone b).st = s.st := rfl
@[simp] theorem State.ackDone_tbl (b : Bool) (s : State) : (s.ackDone b).tbl = s.tbl := rfl
@[simp] theorem State.ackDone_ieDone (b : Bool) (s : State) : (s.ackDone b).ieDone = s.ieDone := rfl
@[simp] theorem State.ackDone_ieErr (b : Bool) (s : State) : (s.ackDone b).ieErr = s.ieErr := rfl
@[simp] theorem State.ackDone_done (b : Bool) (s : State) : (s.ackDone b).done = if b then false else s.done := rfl
@[simp] theorem State.ackDone_err (b : Bool) (s : State) : (s.ackDone b).err = s.err := rfl
@[simp] theorem State.ackDone_errCode (b : Bool) (s : State) : (s.ackDone b).errCode = s.errCode := rfl
@[simp] theorem State.ackDone_tselIndex (b : Bool) (s : State) : (s.ackDone b).tselIndex = s.tselIndex := rfl
@[simp] theorem State.ackDone_tselSlot (b : Bool) (s : State) : (s.ackDone b).tselSlot = s.tselSlot := rfl
@[simp] theorem State.ackDone_tselBank (b : Bool) (s : State) : (s.ackDone b).tselBank = s.tselBank := rfl
@[simp] theorem State.ackDone_rcnt (b : Bool) (s : State) : (s.ackDone b).rcnt = s.rcnt := rfl
@[simp] theorem State.ackDone_eng (b : Bool) (s : State) : (s.ackDone b).eng = s.eng := rfl
@[simp] theorem State.ackDone_mixed (b : Bool) (s : State) : (s.ackDone b).mixed = s.mixed := rfl
@[simp] theorem State.ackDone_rdata (b : Bool) (s : State) : (s.ackDone b).rdata = s.rdata := rfl
@[simp] theorem State.ackDone_ack (b : Bool) (s : State) : (s.ackDone b).ack = s.ack := rfl
@[simp] theorem State.ackDone_resetDone (b : Bool) (s : State) : (s.ackDone b).resetDone = s.resetDone := rfl
@[simp] theorem State.ackDone_events (b : Bool) (s : State) : (s.ackDone b).events = s.events := rfl
@[simp] theorem State.ackDone_draws (b : Bool) (s : State) : (s.ackDone b).draws = s.draws := rfl
@[simp] theorem State.ackDone_n (b : Bool) (s : State) : (s.ackDone b).n = s.n := rfl
@[simp] theorem State.ackDone_isBusy (b : Bool) (s : State) : (s.ackDone b).isBusy = s.isBusy := rfl

/-! ### acked -/

@[simp] theorem State.acked_cfg (s : State) : (s.acked).cfg = s.cfg := rfl
@[simp] theorem State.acked_st (s : State) : (s.acked).st = s.st := rfl
@[simp] theorem State.acked_tbl (s : State) : (s.acked).tbl = s.tbl := rfl
@[simp] theorem State.acked_ieDone (s : State) : (s.acked).ieDone = s.ieDone := rfl
@[simp] theorem State.acked_ieErr (s : State) : (s.acked).ieErr = s.ieErr := rfl
@[simp] theorem State.acked_done (s : State) : (s.acked).done = s.done := rfl
@[simp] theorem State.acked_err (s : State) : (s.acked).err = s.err := rfl
@[simp] theorem State.acked_errCode (s : State) : (s.acked).errCode = s.errCode := rfl
@[simp] theorem State.acked_tselIndex (s : State) : (s.acked).tselIndex = s.tselIndex := rfl
@[simp] theorem State.acked_tselSlot (s : State) : (s.acked).tselSlot = s.tselSlot := rfl
@[simp] theorem State.acked_tselBank (s : State) : (s.acked).tselBank = s.tselBank := rfl
@[simp] theorem State.acked_rcnt (s : State) : (s.acked).rcnt = s.rcnt := rfl
@[simp] theorem State.acked_eng (s : State) : (s.acked).eng = s.eng := rfl
@[simp] theorem State.acked_mixed (s : State) : (s.acked).mixed = s.mixed := rfl
@[simp] theorem State.acked_rdata (s : State) : (s.acked).rdata = s.rdata := rfl
@[simp] theorem State.acked_ack (s : State) : (s.acked).ack = true := rfl
@[simp] theorem State.acked_resetDone (s : State) : (s.acked).resetDone = s.resetDone := rfl
@[simp] theorem State.acked_events (s : State) : (s.acked).events = s.events := rfl
@[simp] theorem State.acked_draws (s : State) : (s.acked).draws = s.draws := rfl
@[simp] theorem State.acked_n (s : State) : (s.acked).n = s.n := rfl
@[simp] theorem State.acked_isBusy (s : State) : (s.acked).isBusy = s.isBusy := rfl

/-! ### answer -/

@[simp] theorem State.answer_cfg (v : BusWord) (s : State) : (s.answer v).cfg = s.cfg := rfl
@[simp] theorem State.answer_st (v : BusWord) (s : State) : (s.answer v).st = s.st := rfl
@[simp] theorem State.answer_tbl (v : BusWord) (s : State) : (s.answer v).tbl = s.tbl := rfl
@[simp] theorem State.answer_ieDone (v : BusWord) (s : State) : (s.answer v).ieDone = s.ieDone := rfl
@[simp] theorem State.answer_ieErr (v : BusWord) (s : State) : (s.answer v).ieErr = s.ieErr := rfl
@[simp] theorem State.answer_done (v : BusWord) (s : State) : (s.answer v).done = s.done := rfl
@[simp] theorem State.answer_err (v : BusWord) (s : State) : (s.answer v).err = s.err := rfl
@[simp] theorem State.answer_errCode (v : BusWord) (s : State) : (s.answer v).errCode = s.errCode := rfl
@[simp] theorem State.answer_tselIndex (v : BusWord) (s : State) : (s.answer v).tselIndex = s.tselIndex := rfl
@[simp] theorem State.answer_tselSlot (v : BusWord) (s : State) : (s.answer v).tselSlot = s.tselSlot := rfl
@[simp] theorem State.answer_tselBank (v : BusWord) (s : State) : (s.answer v).tselBank = s.tselBank := rfl
@[simp] theorem State.answer_rcnt (v : BusWord) (s : State) : (s.answer v).rcnt = s.rcnt := rfl
@[simp] theorem State.answer_eng (v : BusWord) (s : State) : (s.answer v).eng = s.eng := rfl
@[simp] theorem State.answer_mixed (v : BusWord) (s : State) : (s.answer v).mixed = s.mixed := rfl
@[simp] theorem State.answer_rdata (v : BusWord) (s : State) : (s.answer v).rdata = v := rfl
@[simp] theorem State.answer_ack (v : BusWord) (s : State) : (s.answer v).ack = true := rfl
@[simp] theorem State.answer_resetDone (v : BusWord) (s : State) : (s.answer v).resetDone = s.resetDone := rfl
@[simp] theorem State.answer_events (v : BusWord) (s : State) : (s.answer v).events = s.events := rfl
@[simp] theorem State.answer_draws (v : BusWord) (s : State) : (s.answer v).draws = s.draws := rfl
@[simp] theorem State.answer_n (v : BusWord) (s : State) : (s.answer v).n = s.n := rfl
@[simp] theorem State.answer_isBusy (v : BusWord) (s : State) : (s.answer v).isBusy = s.isBusy := rfl

/-! ### subLayer -/

@[simp] theorem State.subLayer_cfg (b : Dir) (s : State) : (s.subLayer b).cfg = s.cfg := rfl
@[simp] theorem State.subLayer_st (b : Dir) (s : State) : (s.subLayer b).st = subVec s.tbl s.n b s.draws s.st := rfl
@[simp] theorem State.subLayer_tbl (b : Dir) (s : State) : (s.subLayer b).tbl = s.tbl := rfl
@[simp] theorem State.subLayer_ieDone (b : Dir) (s : State) : (s.subLayer b).ieDone = s.ieDone := rfl
@[simp] theorem State.subLayer_ieErr (b : Dir) (s : State) : (s.subLayer b).ieErr = s.ieErr := rfl
@[simp] theorem State.subLayer_done (b : Dir) (s : State) : (s.subLayer b).done = s.done := rfl
@[simp] theorem State.subLayer_err (b : Dir) (s : State) : (s.subLayer b).err = s.err := rfl
@[simp] theorem State.subLayer_errCode (b : Dir) (s : State) : (s.subLayer b).errCode = s.errCode := rfl
@[simp] theorem State.subLayer_tselIndex (b : Dir) (s : State) : (s.subLayer b).tselIndex = s.tselIndex := rfl
@[simp] theorem State.subLayer_tselSlot (b : Dir) (s : State) : (s.subLayer b).tselSlot = s.tselSlot := rfl
@[simp] theorem State.subLayer_tselBank (b : Dir) (s : State) : (s.subLayer b).tselBank = s.tselBank := rfl
@[simp] theorem State.subLayer_rcnt (b : Dir) (s : State) : (s.subLayer b).rcnt = s.rcnt := rfl
@[simp] theorem State.subLayer_eng (b : Dir) (s : State) : (s.subLayer b).eng = s.eng := rfl
@[simp] theorem State.subLayer_mixed (b : Dir) (s : State) : (s.subLayer b).mixed = s.mixed := rfl
@[simp] theorem State.subLayer_rdata (b : Dir) (s : State) : (s.subLayer b).rdata = s.rdata := rfl
@[simp] theorem State.subLayer_ack (b : Dir) (s : State) : (s.subLayer b).ack = s.ack := rfl
@[simp] theorem State.subLayer_resetDone (b : Dir) (s : State) : (s.subLayer b).resetDone = s.resetDone := rfl
@[simp] theorem State.subLayer_events (b : Dir) (s : State) : (s.subLayer b).events = s.events := rfl
@[simp] theorem State.subLayer_draws (b : Dir) (s : State) : (s.subLayer b).draws = s.draws + s.n := rfl
@[simp] theorem State.subLayer_n (b : Dir) (s : State) : (s.subLayer b).n = s.n := rfl
@[simp] theorem State.subLayer_isBusy (b : Dir) (s : State) : (s.subLayer b).isBusy = s.isBusy := rfl

/-! ### mixLayer -/

@[simp] theorem State.mixLayer_cfg (b : Dir) (s : State) : (s.mixLayer b).cfg = s.cfg := rfl
@[simp] theorem State.mixLayer_st (b : Dir) (s : State) : (s.mixLayer b).st = mixVec s.n (Config.matrix s.cfg b) s.st := rfl
@[simp] theorem State.mixLayer_tbl (b : Dir) (s : State) : (s.mixLayer b).tbl = s.tbl := rfl
@[simp] theorem State.mixLayer_ieDone (b : Dir) (s : State) : (s.mixLayer b).ieDone = s.ieDone := rfl
@[simp] theorem State.mixLayer_ieErr (b : Dir) (s : State) : (s.mixLayer b).ieErr = s.ieErr := rfl
@[simp] theorem State.mixLayer_done (b : Dir) (s : State) : (s.mixLayer b).done = s.done := rfl
@[simp] theorem State.mixLayer_err (b : Dir) (s : State) : (s.mixLayer b).err = s.err := rfl
@[simp] theorem State.mixLayer_errCode (b : Dir) (s : State) : (s.mixLayer b).errCode = s.errCode := rfl
@[simp] theorem State.mixLayer_tselIndex (b : Dir) (s : State) : (s.mixLayer b).tselIndex = s.tselIndex := rfl
@[simp] theorem State.mixLayer_tselSlot (b : Dir) (s : State) : (s.mixLayer b).tselSlot = s.tselSlot := rfl
@[simp] theorem State.mixLayer_tselBank (b : Dir) (s : State) : (s.mixLayer b).tselBank = s.tselBank := rfl
@[simp] theorem State.mixLayer_rcnt (b : Dir) (s : State) : (s.mixLayer b).rcnt = s.rcnt := rfl
@[simp] theorem State.mixLayer_eng (b : Dir) (s : State) : (s.mixLayer b).eng = s.eng := rfl
@[simp] theorem State.mixLayer_mixed (b : Dir) (s : State) : (s.mixLayer b).mixed = s.mixed := rfl
@[simp] theorem State.mixLayer_rdata (b : Dir) (s : State) : (s.mixLayer b).rdata = s.rdata := rfl
@[simp] theorem State.mixLayer_ack (b : Dir) (s : State) : (s.mixLayer b).ack = s.ack := rfl
@[simp] theorem State.mixLayer_resetDone (b : Dir) (s : State) : (s.mixLayer b).resetDone = s.resetDone := rfl
@[simp] theorem State.mixLayer_events (b : Dir) (s : State) : (s.mixLayer b).events = s.events := rfl
@[simp] theorem State.mixLayer_draws (b : Dir) (s : State) : (s.mixLayer b).draws = s.draws := rfl
@[simp] theorem State.mixLayer_n (b : Dir) (s : State) : (s.mixLayer b).n = s.n := rfl
@[simp] theorem State.mixLayer_isBusy (b : Dir) (s : State) : (s.mixLayer b).isBusy = s.isBusy := rfl

/-! ### writeCtrl -/

@[simp] theorem State.writeCtrl_cfg (v : BusWord) (s : State) : (s.writeCtrl v).cfg = s.cfg := rfl
@[simp] theorem State.writeCtrl_st (v : BusWord) (s : State) : (s.writeCtrl v).st = s.st := rfl
@[simp] theorem State.writeCtrl_tbl (v : BusWord) (s : State) : (s.writeCtrl v).tbl = s.tbl := rfl
@[simp] theorem State.writeCtrl_ieDone (v : BusWord) (s : State) : (s.writeCtrl v).ieDone = v.getLsbD 0 := rfl
@[simp] theorem State.writeCtrl_ieErr (v : BusWord) (s : State) : (s.writeCtrl v).ieErr = v.getLsbD 1 := rfl
@[simp] theorem State.writeCtrl_done (v : BusWord) (s : State) : (s.writeCtrl v).done = s.done := rfl
@[simp] theorem State.writeCtrl_err (v : BusWord) (s : State) : (s.writeCtrl v).err = s.err := rfl
@[simp] theorem State.writeCtrl_errCode (v : BusWord) (s : State) : (s.writeCtrl v).errCode = s.errCode := rfl
@[simp] theorem State.writeCtrl_tselIndex (v : BusWord) (s : State) : (s.writeCtrl v).tselIndex = s.tselIndex := rfl
@[simp] theorem State.writeCtrl_tselSlot (v : BusWord) (s : State) : (s.writeCtrl v).tselSlot = s.tselSlot := rfl
@[simp] theorem State.writeCtrl_tselBank (v : BusWord) (s : State) : (s.writeCtrl v).tselBank = s.tselBank := rfl
@[simp] theorem State.writeCtrl_rcnt (v : BusWord) (s : State) : (s.writeCtrl v).rcnt = s.rcnt := rfl
@[simp] theorem State.writeCtrl_eng (v : BusWord) (s : State) : (s.writeCtrl v).eng = s.eng := rfl
@[simp] theorem State.writeCtrl_mixed (v : BusWord) (s : State) : (s.writeCtrl v).mixed = s.mixed := rfl
@[simp] theorem State.writeCtrl_rdata (v : BusWord) (s : State) : (s.writeCtrl v).rdata = s.rdata := rfl
@[simp] theorem State.writeCtrl_ack (v : BusWord) (s : State) : (s.writeCtrl v).ack = s.ack := rfl
@[simp] theorem State.writeCtrl_resetDone (v : BusWord) (s : State) : (s.writeCtrl v).resetDone = s.resetDone := rfl
@[simp] theorem State.writeCtrl_events (v : BusWord) (s : State) : (s.writeCtrl v).events = s.events := rfl
@[simp] theorem State.writeCtrl_draws (v : BusWord) (s : State) : (s.writeCtrl v).draws = s.draws := rfl
@[simp] theorem State.writeCtrl_n (v : BusWord) (s : State) : (s.writeCtrl v).n = s.n := rfl
@[simp] theorem State.writeCtrl_isBusy (v : BusWord) (s : State) : (s.writeCtrl v).isBusy = s.isBusy := rfl

/-! ### powerUp -/

@[simp] theorem State.powerUp_cfg (s : State) : (s.powerUp).cfg = s.cfg := rfl
@[simp] theorem State.powerUp_st (s : State) : (s.powerUp).st = s.st := rfl
@[simp] theorem State.powerUp_tbl (s : State) : (s.powerUp).tbl = [] := rfl
@[simp] theorem State.powerUp_ieDone (s : State) : (s.powerUp).ieDone = s.ieDone := rfl
@[simp] theorem State.powerUp_ieErr (s : State) : (s.powerUp).ieErr = s.ieErr := rfl
@[simp] theorem State.powerUp_done (s : State) : (s.powerUp).done = s.done := rfl
@[simp] theorem State.powerUp_err (s : State) : (s.powerUp).err = s.err := rfl
@[simp] theorem State.powerUp_errCode (s : State) : (s.powerUp).errCode = s.errCode := rfl
@[simp] theorem State.powerUp_tselIndex (s : State) : (s.powerUp).tselIndex = s.tselIndex := rfl
@[simp] theorem State.powerUp_tselSlot (s : State) : (s.powerUp).tselSlot = s.tselSlot := rfl
@[simp] theorem State.powerUp_tselBank (s : State) : (s.powerUp).tselBank = s.tselBank := rfl
@[simp] theorem State.powerUp_rcnt (s : State) : (s.powerUp).rcnt = s.rcnt := rfl
@[simp] theorem State.powerUp_eng (s : State) : (s.powerUp).eng = s.eng := rfl
@[simp] theorem State.powerUp_mixed (s : State) : (s.powerUp).mixed = s.mixed := rfl
@[simp] theorem State.powerUp_rdata (s : State) : (s.powerUp).rdata = s.rdata := rfl
@[simp] theorem State.powerUp_ack (s : State) : (s.powerUp).ack = s.ack := rfl
@[simp] theorem State.powerUp_resetDone (s : State) : (s.powerUp).resetDone = false := rfl
@[simp] theorem State.powerUp_events (s : State) : (s.powerUp).events = s.events := rfl
@[simp] theorem State.powerUp_draws (s : State) : (s.powerUp).draws = s.draws := rfl
@[simp] theorem State.powerUp_n (s : State) : (s.powerUp).n = s.n := rfl
@[simp] theorem State.powerUp_isBusy (s : State) : (s.powerUp).isBusy = s.isBusy := rfl

/-! ### popEvent -/

@[simp] theorem State.popEvent_cfg (l : List Event) (s : State) : (s.popEvent l).cfg = s.cfg := rfl
@[simp] theorem State.popEvent_st (l : List Event) (s : State) : (s.popEvent l).st = s.st := rfl
@[simp] theorem State.popEvent_tbl (l : List Event) (s : State) : (s.popEvent l).tbl = s.tbl := rfl
@[simp] theorem State.popEvent_ieDone (l : List Event) (s : State) : (s.popEvent l).ieDone = s.ieDone := rfl
@[simp] theorem State.popEvent_ieErr (l : List Event) (s : State) : (s.popEvent l).ieErr = s.ieErr := rfl
@[simp] theorem State.popEvent_done (l : List Event) (s : State) : (s.popEvent l).done = s.done := rfl
@[simp] theorem State.popEvent_err (l : List Event) (s : State) : (s.popEvent l).err = s.err := rfl
@[simp] theorem State.popEvent_errCode (l : List Event) (s : State) : (s.popEvent l).errCode = s.errCode := rfl
@[simp] theorem State.popEvent_tselIndex (l : List Event) (s : State) : (s.popEvent l).tselIndex = s.tselIndex := rfl
@[simp] theorem State.popEvent_tselSlot (l : List Event) (s : State) : (s.popEvent l).tselSlot = s.tselSlot := rfl
@[simp] theorem State.popEvent_tselBank (l : List Event) (s : State) : (s.popEvent l).tselBank = s.tselBank := rfl
@[simp] theorem State.popEvent_rcnt (l : List Event) (s : State) : (s.popEvent l).rcnt = s.rcnt := rfl
@[simp] theorem State.popEvent_eng (l : List Event) (s : State) : (s.popEvent l).eng = s.eng := rfl
@[simp] theorem State.popEvent_mixed (l : List Event) (s : State) : (s.popEvent l).mixed = s.mixed := rfl
@[simp] theorem State.popEvent_rdata (l : List Event) (s : State) : (s.popEvent l).rdata = s.rdata := rfl
@[simp] theorem State.popEvent_ack (l : List Event) (s : State) : (s.popEvent l).ack = false := rfl
@[simp] theorem State.popEvent_resetDone (l : List Event) (s : State) : (s.popEvent l).resetDone = s.resetDone := rfl
@[simp] theorem State.popEvent_events (l : List Event) (s : State) : (s.popEvent l).events = l := rfl
@[simp] theorem State.popEvent_draws (l : List Event) (s : State) : (s.popEvent l).draws = s.draws := rfl
@[simp] theorem State.popEvent_n (l : List Event) (s : State) : (s.popEvent l).n = s.n := rfl
@[simp] theorem State.popEvent_isBusy (l : List Event) (s : State) : (s.popEvent l).isBusy = s.isBusy := rfl

/-! ### resetEdge -/

@[simp] theorem State.resetEdge_cfg (s : State) : s.resetEdge.cfg = s.cfg := rfl
@[simp] theorem State.resetEdge_st (s : State) : s.resetEdge.st = List.replicate s.n 0 := rfl
@[simp] theorem State.resetEdge_tbl (s : State) : s.resetEdge.tbl = s.tbl := rfl
@[simp] theorem State.resetEdge_ieDone (s : State) : s.resetEdge.ieDone = false := rfl
@[simp] theorem State.resetEdge_ieErr (s : State) : s.resetEdge.ieErr = false := rfl
@[simp] theorem State.resetEdge_done (s : State) : s.resetEdge.done = false := rfl
@[simp] theorem State.resetEdge_err (s : State) : s.resetEdge.err = false := rfl
@[simp] theorem State.resetEdge_errCode (s : State) : s.resetEdge.errCode = .none := rfl
@[simp] theorem State.resetEdge_tselIndex (s : State) : s.resetEdge.tselIndex = 0 := rfl
@[simp] theorem State.resetEdge_tselSlot (s : State) : s.resetEdge.tselSlot = 0 := rfl
@[simp] theorem State.resetEdge_tselBank (s : State) : s.resetEdge.tselBank = .forward := rfl
@[simp] theorem State.resetEdge_rcnt (s : State) : s.resetEdge.rcnt = 0 := rfl
@[simp] theorem State.resetEdge_eng (s : State) : s.resetEdge.eng = .idle := rfl
@[simp] theorem State.resetEdge_mixed (s : State) : s.resetEdge.mixed = List.replicate s.n 0 := rfl
@[simp] theorem State.resetEdge_rdata (s : State) : s.resetEdge.rdata = 0 := rfl
@[simp] theorem State.resetEdge_ack (s : State) : s.resetEdge.ack = false := rfl
@[simp] theorem State.resetEdge_resetDone (s : State) : s.resetEdge.resetDone = true := rfl
@[simp] theorem State.resetEdge_events (s : State) : s.resetEdge.events = s.events := rfl
@[simp] theorem State.resetEdge_draws (s : State) : s.resetEdge.draws = s.draws := rfl
@[simp] theorem State.resetEdge_n (s : State) : s.resetEdge.n = s.n := rfl

end Sys2Proof.Machine
end

