-- ==== Sys2Proof/Laws/Vectors.lean ====
section
/-! SUPPORT. The laws of word vectors, XOR sums, packed rows and the two layers. -/

namespace Sys2Proof.Machine

theorem tabulate_length (n : Nat) (f : Nat → Word) : (tabulate n f).length = n := by simp [tabulate]

theorem wordAt_tabulate {n j : Nat} (f : Nat → Word) (h : j < n) : wordAt (tabulate n f) j = f j := by
  simp [wordAt, tabulate, List.getD_eq_getElem?_getD, h]

theorem wordAt_replicate (n j : Nat) : wordAt (List.replicate n 0) j = 0 := by
  by_cases h : j < n <;> simp [wordAt, List.getD_eq_getElem?_getD, h]

/-- Vectors of one length are equal when their entries are. -/
theorem vec_ext {n : Nat} {v w : List Word} (hv : v.length = n) (hw : w.length = n)
    (h : ∀ j, j < n → wordAt v j = wordAt w j) : v = w := by
  apply List.ext_getElem (by rw [hv, hw])
  intro j h₁ h₂
  have := h j (hv ▸ h₁)
  simpa [wordAt, List.getD_eq_getElem?_getD, h₁, h₂] using this

theorem wordAt_set_same {v : List Word} {j : Nat} (w : Word) (h : j < v.length) : wordAt (v.set j w) j = w := by
  simp [wordAt, List.getD_eq_getElem?_getD, h]

theorem wordAt_set_of_ne {v : List Word} {i j : Nat} (w : Word) (h : j ≠ i) :
    wordAt (v.set i w) j = wordAt v j := by
  simp [wordAt, List.getD_eq_getElem?_getD, Ne.symm h]

/-! ### XOR sums -/

theorem xorSum_congr {n : Nat} {f g : Nat → Word} (h : ∀ i, i < n → f i = g i) : xorSum n f = xorSum n g := by
  induction n with
  | zero => rfl
  | succ n ih => rw [xorSum, xorSum, ih fun i hi => h i (by omega), h n (by omega)]

theorem xorSum_zero (n : Nat) : xorSum n (fun _ => 0) = 0 := by
  induction n with
  | zero => rfl
  | succ n ih => rw [xorSum, ih]; rfl

theorem xorSum_xor (n : Nat) (f g : Nat → Word) :
    xorSum n (fun i => f i ^^^ g i) = xorSum n f ^^^ xorSum n g := by
  induction n with
  | zero => simp [xorSum]
  | succ n ih => rw [xorSum, xorSum, xorSum, ih]; ac_rfl

/-- Sums over two indices may be exchanged. -/
theorem xorSum_comm (m n : Nat) (f : Nat → Nat → Word) :
    xorSum m (fun i => xorSum n (f i)) = xorSum n (fun k => xorSum m fun i => f i k) := by
  induction m with
  | zero => simp only [xorSum, xorSum_zero]
  | succ m ih => rw [xorSum, ih, ← xorSum_xor]; rfl

/-- Only one term of the sum is not zero. -/
theorem xorSum_single {n j : Nat} (f : Nat → Word) (h : j < n) :
    xorSum n (fun i => if i = j then f i else 0) = f j := by
  induction n with
  | zero => omega
  | succ n ih =>
    by_cases hj : j = n
    · subst hj
      rw [xorSum, xorSum_congr (g := fun _ => 0) fun i hi => if_neg (by omega), xorSum_zero]
      simp
    · rw [xorSum, ih (by omega), if_neg (by omega)]
      simp

/-- Bit k of a sum is the GF(2) sum of the bits k of its terms. -/
theorem xorSum_getLsbD (n : Nat) (f : Nat → Word) (k : Nat) :
    (xorSum n f).getLsbD k = bitSum n fun i => (f i).getLsbD k := by
  induction n with
  | zero => simp [xorSum, bitSum]
  | succ n ih => rw [xorSum, BitVec.getLsbD_xor, ih, bitSum]

/-- A word taken once for every true bit is the word or zero by the GF(2) sum of the bits. -/
theorem xorSum_ite_const (n : Nat) (p : Nat → Bool) (w : Word) :
    xorSum n (fun k => if p k then w else 0) = if bitSum n p then w else 0 := by
  induction n with
  | zero => simp [xorSum, bitSum]
  | succ n ih =>
    rw [xorSum, ih, bitSum]
    cases bitSum n p <;> cases p n <;> simp

theorem bitSum_congr {n : Nat} {p q : Nat → Bool} (h : ∀ i, i < n → p i = q i) : bitSum n p = bitSum n q := by
  induction n with
  | zero => rfl
  | succ n ih => rw [bitSum, bitSum, ih fun i hi => h i (by omega), h n (by omega)]

/-- The GF(2) sum is the parity of the number of true bits. -/
theorem bitSum_eq_odd_card (n : Nat) (p : Nat → Bool) :
    bitSum n p = true ↔ Odd ((Finset.range n).filter fun i => p i = true).card := by
  induction n with
  | zero => simp [bitSum]
  | succ n ih =>
    rw [bitSum, Finset.range_add_one, Finset.filter_insert]
    by_cases h : p n = true
    · rw [if_pos h, Finset.card_insert_of_notMem (by simp), Nat.odd_add_one, ← ih, h]
      simp
    · simpa [h] using ih

/-! ### Packed rows -/

theorem bitsToWord_getLsbD {n : Nat} (f : Nat → Bool) (hn : n ≤ 16) (i : Nat) :
    (bitsToWord n f).getLsbD i = (decide (i < n) && f i) := by
  induction n with
  | zero => simp [bitsToWord]
  | succ n ih =>
    rw [bitsToWord, BitVec.getLsbD_or, ih (by omega)]
    by_cases hi : i = n
    · subst hi
      cases f i <;> simp [BitVec.getLsbD_twoPow]; omega
    · by_cases hf : f n = true
      · have : (i < n + 1) = (i < n) := by simp; omega
        simp [hf, BitVec.getLsbD_twoPow, Ne.symm hi, this]
      · have : (i < n + 1) = (i < n) := by simp; omega
        simp [hf, this]

/-! ### The layers -/

theorem Config.n_le (c : Config) : c.n ≤ 16 := by
  unfold Config.n; cases c.width <;> decide

theorem Config.n_ge (c : Config) : 8 ≤ c.n := by
  unfold Config.n; cases c.width <;> decide

theorem subVec_length (tbl : Memory) (n : Nat) (b : Dir) (d : Nat) (v : List Word) :
    (subVec tbl n b d v).length = n := tabulate_length _ _

theorem mixVec_length (n : Nat) (m v : List Word) : (mixVec n m v).length = n := tabulate_length _ _

theorem wordAt_subVec {n j : Nat} (tbl : Memory) (b : Dir) (d : Nat) (v : List Word) (h : j < n) :
    wordAt (subVec tbl n b d v) j = tbl.lookup b j (wordAt v j) (d + j) := wordAt_tabulate _ h

theorem wordAt_mixVec {n j : Nat} (m v : List Word) (h : j < n) :
    wordAt (mixVec n m v) j = xorSum n fun i => if matEntry m j i then wordAt v i else 0 := wordAt_tabulate _ h

/-- Applying matrix A after matrix B, as one double sum. -/
theorem wordAt_mixVec_mixVec {n j : Nat} (a b v : List Word) (h : j < n) :
    wordAt (mixVec n a (mixVec n b v)) j
      = xorSum n fun i => xorSum n fun k => if matEntry a j k && matEntry b k i then wordAt v i else 0 := by
  rw [wordAt_mixVec _ _ h, ← xorSum_comm]
  apply xorSum_congr
  intro k hk
  cases hak : matEntry a j k
  · simpa using (xorSum_zero n).symm
  · simp [wordAt_mixVec b v hk]

/-- Matrices compose as their product over GF(2) (R80). -/
theorem mixVec_mixVec {n : Nat} {a b c : List Word} (v : List Word)
    (h : ∀ j, j < n → ∀ i, i < n → matEntry c j i = bitSum n fun k => matEntry a j k && matEntry b k i) :
    mixVec n a (mixVec n b v) = mixVec n c v := by
  refine vec_ext (mixVec_length _ _ _) (mixVec_length _ _ _) fun j hj => ?_
  rw [wordAt_mixVec_mixVec a b v hj, wordAt_mixVec c v hj]
  exact xorSum_congr fun i hi => by rw [xorSum_ite_const n _ (wordAt v i), h j hj i hi]

/-- A matrix with the entries of the identity leaves a vector of N words alone (R80). -/
theorem mixVec_identity {n : Nat} {m v : List Word} (hv : v.length = n)
    (h : ∀ j, j < n → ∀ i, i < n → matEntry m j i = decide (j = i)) : mixVec n m v = v := by
  refine vec_ext (mixVec_length _ _ _) hv fun j hj => ?_
  rw [wordAt_mixVec _ _ hj, xorSum_congr (g := fun i => if i = j then wordAt v i else 0) fun i hi => ?_,
    xorSum_single _ hj]
  rw [h j hj i hi]
  by_cases e : j = i
  · simp [e]
  · simp [e, Ne.symm e]

end Sys2Proof.Machine
end

