-- ==== Sys2Proof/Laws/Ops.lean ====
section
/-! SUPPORT. What each shared operation can do, once: the command operation, the register map, the host's
transactions, the decoder of command words. -/

namespace Sys2Proof.Machine

/-! ### The register map -/

theorem regAt_st {n j : Nat} (hj : j < n) (hn : n ≤ 16) : regAt n (BitVec.ofNat 6 (0x10 + j)) = .st j := by
  have h : (BitVec.ofNat 6 (0x10 + j)).toNat = 0x10 + j := by simp; omega
  simp only [regAt, h]
  rw [if_neg (by omega), if_neg (by omega), if_pos (by omega), if_pos (by omega)]
  congr 1
  omega

theorem regAt_matF {n j : Nat} (hj : j < n) (hn : n ≤ 16) : regAt n (BitVec.ofNat 6 (0x20 + j)) = .matF j := by
  have h : (BitVec.ofNat 6 (0x20 + j)).toNat = 0x20 + j := by simp; omega
  simp only [regAt, h]
  rw [if_neg (by omega), if_neg (by omega), if_neg (by omega), if_pos (by omega), if_pos (by omega)]
  congr 1
  omega

theorem regAt_matI {n j : Nat} (hj : j < n) (hn : n ≤ 16) : regAt n (BitVec.ofNat 6 (0x30 + j)) = .matI j := by
  have h : (BitVec.ofNat 6 (0x30 + j)).toNat = 0x30 + j := by simp; omega
  simp only [regAt, h]
  rw [if_neg (by omega), if_neg (by omega), if_neg (by omega), if_neg (by omega), if_pos (by omega)]
  congr 1
  omega

/-- The reserved addresses of R22. -/
theorem regAt_reserved {n : Nat} {a : RegAddr}
    (h : (8 ≤ a.toNat ∧ a.toNat < 16) ∨ (16 ≤ a.toNat ∧ n ≤ a.toNat % 16)) : regAt n a = .reserved := by
  have := a.isLt
  unfold regAt
  split
  · omega
  · split
    · rfl
    · split
      · rw [if_neg (by omega)]
      · split
        · rw [if_neg (by omega)]
        · rw [if_neg (by omega)]

/-- Only the fixed addresses name the single registers. -/
theorem regAt_single {n : Nat} {a : RegAddr} (h : ∀ j, regAt n a ≠ .st j) (h' : ∀ j, regAt n a ≠ .matF j)
    (h'' : ∀ j, regAt n a ≠ .matI j) (hr : regAt n a ≠ .reserved) : a.toNat < 8 := by
  by_contra hlt
  simp only [regAt, if_neg hlt] at h h' h'' hr
  repeat' split at hr
  all_goals first | exact absurd rfl hr | skip
  · exact h _ (by rw [if_neg (by assumption), if_pos (by assumption), if_pos (by assumption)])
  · exact h' _ (by rw [if_neg (by assumption), if_neg (by assumption), if_pos (by assumption), if_pos (by assumption)])
  · exact h'' _ (by rw [if_neg (by assumption), if_neg (by assumption), if_neg (by assumption), if_pos (by assumption)])

/-- The register of a fixed address, and no other address, is that register. -/
theorem regAt_fixed {n : Nat} {a b : RegAddr} (hb : b.toNat < 8) (h : regAt n a = regAt n b) : a = b := by
  have ha : a.toNat < 8 := by
    apply regAt_single (n := n) <;>
      first
        | (intro j; rw [h, regAt, if_pos hb]; split <;> simp)
        | (rw [h, regAt, if_pos hb]; split <;> simp)
  apply BitVec.eq_of_toNat_eq
  simp only [regAt, if_pos ha, if_pos hb] at h
  interval_cases a.toNat <;> interval_cases b.toNat <;> simp at h <;> rfl

theorem regAt_status_iff {n : Nat} {a : RegAddr} : regAt n a = .status ↔ a = 0x02 :=
  ⟨fun h => regAt_fixed (n := n) (b := 0x02) (by decide) h, fun h => h ▸ rfl⟩

theorem regAt_cmd_iff {n : Nat} {a : RegAddr} : regAt n a = .cmd ↔ a = 0x03 :=
  ⟨fun h => regAt_fixed (n := n) (b := 0x03) (by decide) h, fun h => h ▸ rfl⟩

theorem regAt_tsel_iff {n : Nat} {a : RegAddr} : regAt n a = .tsel ↔ a = 0x04 :=
  ⟨fun h => regAt_fixed (n := n) (b := 0x04) (by decide) h, fun h => h ▸ rfl⟩

theorem regAt_tdata_iff {n : Nat} {a : RegAddr} : regAt n a = .tdata ↔ a = 0x05 :=
  ⟨fun h => regAt_fixed (n := n) (b := 0x05) (by decide) h, fun h => h ▸ rfl⟩

theorem regAt_st_lt {n j : Nat} {a : RegAddr} (h : regAt n a = .st j) : j < n ∧ a = BitVec.ofNat 6 (0x10 + j) := by
  have ha := a.isLt
  unfold regAt at h
  split at h
  · split at h <;> simp at h
  · repeat' split at h
    all_goals simp at h
    subst h
    refine ⟨by assumption, BitVec.eq_of_toNat_eq ?_⟩
    simp
    omega

/-! ### Errors -/

/-- `raise` in the words of R102: the first error is recorded. -/
theorem State.raise_of_no_err {s : State} (code : ErrCode) (h : s.err = false) :
    s.raise code = { s with err := true, errCode := code } := by
  simp [State.raise, h]

/-- `raise` in the words of R102: a later error changes nothing. -/
theorem State.raise_of_err {s : State} (code : ErrCode) (h : s.err = true) : s.raise code = s := by
  cases s
  simp_all [State.raise]

/-! ### Commands -/

theorem State.command_of_idle {s : State} (c : Command) (f : State → State) (h : s.eng = .idle) :
    s.command c f = .next (f (s.accept c)).finish := by
  simp [State.command, h]

theorem State.command_of_running {s : State} {c : Command} {k : Nat} {p : Phase} (f : State → State)
    (h : s.eng = .busy c k p) : s.command c f = .next (f s).finish := by
  simp [State.command, h]

theorem State.command_of_other {s : State} {c c' : Command} {k : Nat} {p : Phase} (f : State → State)
    (h : s.eng = .busy c' k p) (hc : c' ≠ c) : s.command c f = .next (s.raise .busy).acked := by
  simp [State.command, h, hc]

/-- Everything the command operation can do. -/
theorem State.command_cases {s t : State} {c : Command} {f : State → State} (h : s.command c f = .next t) :
    (s.eng = .idle ∧ t = (f (s.accept c)).finish) ∨
    (∃ k p, s.eng = .busy c k p ∧ t = (f s).finish) ∨
    (∃ c' k p, s.eng = .busy c' k p ∧ c' ≠ c ∧ t = (s.raise .busy).acked) := by
  cases e : s.eng with
  | idle => rw [State.command_of_idle c f e] at h; exact .inl ⟨rfl, by simpa using h.symm⟩
  | busy c' k p =>
    by_cases hc : c' = c
    · subst hc
      rw [State.command_of_running f e] at h
      exact .inr (.inl ⟨k, p, rfl, by simpa using h.symm⟩)
    · rw [State.command_of_other f e hc] at h
      exact .inr (.inr ⟨c', k, p, rfl, hc, by simpa using h.symm⟩)

theorem State.isBusy_of_idle {s : State} (h : s.eng = .idle) : s.isBusy = false := by simp [State.isBusy, h]

theorem State.isBusy_of_busy {s : State} {c : Command} {k : Nat} {p : Phase} (h : s.eng = .busy c k p) :
    s.isBusy = true := by simp [State.isBusy, h]

theorem State.isBusy_eq_false_iff {s : State} : s.isBusy = false ↔ s.eng = .idle := by
  cases h : s.eng <;> simp [State.isBusy, h]

/-! ### Command words -/

theorem cmdOp_pack (imm : Word) (d : Bool) (op : BitVec 4) : cmdOp (packCommand imm d op) = op := by
  apply BitVec.eq_of_getLsbD_eq
  intro i hi
  simp only [cmdOp, packCommand, BitVec.getLsbD_extractLsb', BitVec.getLsbD_append]
  simp [hi]

theorem cmdD_pack (imm : Word) (d : Bool) (op : BitVec 4) : cmdD (packCommand imm d op) = d := by
  simp only [cmdD, packCommand, BitVec.getLsbD_append]
  simp

theorem cmdRsv_pack (imm : Word) (d : Bool) (op : BitVec 4) : cmdRsv (packCommand imm d op) = 0 := by
  apply BitVec.eq_of_getLsbD_eq
  intro i hi
  have h₁ : ¬ 5 + i < 4 := by omega
  have h₂ : ¬ 5 + i - 4 < 1 := by omega
  have h₃ : 5 + i - 4 - 1 < 11 := by omega
  simp only [cmdRsv, packCommand, BitVec.getLsbD_extractLsb', BitVec.getLsbD_append]
  simp [h₁, h₂, h₃]

theorem cmdImm_pack (imm : Word) (d : Bool) (op : BitVec 4) : cmdImm (packCommand imm d op) = imm := by
  apply BitVec.eq_of_getLsbD_eq
  intro i hi
  have h₁ : ¬ 16 + i < 4 := by omega
  have h₂ : ¬ 16 + i - 4 < 1 := by omega
  have h₃ : ¬ 16 + i - 4 - 1 < 11 := by omega
  have h₄ : 16 + i - 4 - 1 - 11 = i := by omega
  simp only [cmdImm, packCommand, BitVec.getLsbD_extractLsb', BitVec.getLsbD_append]
  simp [h₁, h₂, h₃, h₄, hi]

/-- A command word is its four fields. -/
theorem pack_fields (c : BusWord) (h : cmdRsv c = 0) : packCommand (cmdImm c) (cmdD c) (cmdOp c) = c := by
  apply BitVec.eq_of_getLsbD_eq
  intro i hi
  simp only [packCommand, cmdImm, cmdOp, cmdD, BitVec.getLsbD_extractLsb', BitVec.getLsbD_append]
  by_cases h₁ : i < 4
  · simp [h₁]
  · by_cases h₂ : i = 4
    · subst h₂; simp
    · by_cases h₃ : i < 16
      · have hr := congrArg (fun x => x.getLsbD (i - 5)) h
        have h₄ : ¬ i - 4 < 1 := by omega
        have h₅ : i - 4 - 1 < 11 := by omega
        have h₆ : i - 5 < 11 := by omega
        have h₇ : 5 + (i - 5) = i := by omega
        simp only [cmdRsv, BitVec.getLsbD_extractLsb', h₆, h₇] at hr
        simp [h₁, h₄, h₅] at hr ⊢
        exact hr
      · have h₄ : ¬ i - 4 < 1 := by omega
        have h₅ : ¬ i - 4 - 1 < 11 := by omega
        have h₆ : i - 4 - 1 - 11 < 16 := by omega
        have h₇ : 16 + (i - 4 - 1 - 11) = i := by omega
        simp [h₁, h₄, h₅, h₆, h₇]

/-- What `decode` does with the word of given fields (R49). -/
theorem decodeCommand_pack (imm : Word) (d : Bool) (op : BitVec 4) :
    decodeCommand (packCommand imm d op) =
      if op = 1 then .ok (if d = false then .runF imm.toNat else .runI imm.toNat)
      else if imm ≠ 0 then .error .badcmd
      else if op = 0 ∧ d = false then .ok .nop
      else if op = 2 then .ok (if d = false then .subF else .subI)
      else if op = 3 then .ok (if d = false then .mixF else .mixI)
      else if op = 4 ∧ d = false then .ok .clrst
      else .error .badcmd := by
  simp only [decodeCommand, cmdOp_pack, cmdD_pack, cmdRsv_pack, cmdImm_pack, ne_eq, not_true_eq_false, if_false]

/-! ### Packed words as numbers -/

theorem append_toNat {n m : Nat} (x : BitVec n) (y : BitVec m) : (x ++ y).toNat = x.toNat * 2 ^ m + y.toNat := by
  rw [BitVec.toNat_append, ← Nat.shiftLeft_add_eq_or_of_lt y.isLt, Nat.shiftLeft_eq]

theorem packTransaction_toNat (we : Bool) (a : RegAddr) (v : BusWord) :
    (packTransaction we a v).toNat = we.toNat * 2 ^ 38 + a.toNat * 2 ^ 32 + v.toNat := by
  simp only [packTransaction, append_toNat, BitVec.toNat_ofBool]
  omega

theorem tselWord_toNat (s : State) : (tselWord s).toNat =
    s.tselIndex.toNat + 65536 * s.tselSlot.toNat + 1048576 * (dirBit s.tselBank).toNat := by
  simp only [tselWord, append_toNat, BitVec.toNat_ofBool, BitVec.toNat_ofNat]
  omega

theorem statusWord_toNat (s : State) : (statusWord s).toNat =
    s.isBusy.toNat + 2 * s.done.toNat + 4 * s.err.toNat + 16 * (errBits s.errCode).toNat := by
  simp only [statusWord, append_toNat, BitVec.toNat_ofBool, BitVec.toNat_ofNat]
  omega

theorem ctrlWord_toNat (s : State) : (ctrlWord s).toNat = s.ieDone.toNat + 2 * s.ieErr.toNat := by
  simp only [ctrlWord, append_toNat, BitVec.toNat_ofBool, BitVec.toNat_ofNat]
  omega

theorem cmdOp_toNat (c : BusWord) : (cmdOp c).toNat = c.toNat % 16 := by simp [cmdOp]

theorem cmdD_toNat (c : BusWord) : (cmdD c).toNat = c.toNat / 16 % 2 := by
  rw [cmdD, BitVec.getLsbD, Nat.toNat_testBit]

theorem cmdRsv_toNat (c : BusWord) : (cmdRsv c).toNat = c.toNat / 32 % 2048 := by
  simp [cmdRsv, Nat.shiftRight_eq_div_pow]

theorem cmdImm_toNat (c : BusWord) : (cmdImm c).toNat = c.toNat / 65536 := by
  have := c.isLt
  simp [cmdImm, Nat.shiftRight_eq_div_pow]; omega

/-- `decode` of R49 on the word as a number. -/
theorem decodeCommand_toNat (c : BusWord) :
    decodeCommand c =
      if c.toNat / 32 % 2048 ≠ 0 then .error .badcmd
      else if c.toNat % 16 = 1 then
        .ok (if c.toNat / 16 % 2 = 0 then .runF (c.toNat / 65536) else .runI (c.toNat / 65536))
      else if c.toNat / 65536 ≠ 0 then .error .badcmd
      else if c.toNat % 16 = 0 ∧ c.toNat / 16 % 2 = 0 then .ok .nop
      else if c.toNat % 16 = 2 then .ok (if c.toNat / 16 % 2 = 0 then .subF else .subI)
      else if c.toNat % 16 = 3 then .ok (if c.toNat / 16 % 2 = 0 then .mixF else .mixI)
      else if c.toNat % 16 = 4 ∧ c.toNat / 16 % 2 = 0 then .ok .clrst
      else .error .badcmd := by
  have hop : ∀ k : BitVec 4, cmdOp c = k ↔ c.toNat % 16 = k.toNat := fun k => by
    rw [← cmdOp_toNat, BitVec.toNat_eq]
  have hrsv : cmdRsv c = 0 ↔ c.toNat / 32 % 2048 = 0 := by rw [← cmdRsv_toNat, BitVec.toNat_eq]; rfl
  have himm : cmdImm c = 0 ↔ c.toNat / 65536 = 0 := by rw [← cmdImm_toNat, BitVec.toNat_eq]; rfl
  have hd : cmdD c = false ↔ c.toNat / 16 % 2 = 0 := by rw [← cmdD_toNat]; cases cmdD c <;> simp
  simp only [decodeCommand, hop, hrsv, himm, hd, cmdImm_toNat, ne_eq]
  rfl

/-! ### Transactions -/

theorem decodeTransaction_pack_write (a : RegAddr) (v : BusWord) :
    decodeTransaction (packTransaction true a v) = .wr a v := by
  have h₁ : (packTransaction true a v).getLsbD 38 = true := by
    simp only [packTransaction, BitVec.getLsbD_append]; simp
  have h₂ : (packTransaction true a v).extractLsb' 32 6 = a := by
    apply BitVec.eq_of_getLsbD_eq
    intro i hi
    have h : ¬ 32 + i < 32 := by omega
    simp only [packTransaction, BitVec.getLsbD_extractLsb', BitVec.getLsbD_append]
    simp [hi]
  have h₃ : (packTransaction true a v).extractLsb' 0 32 = v := by
    apply BitVec.eq_of_getLsbD_eq
    intro i hi
    simp only [packTransaction, BitVec.getLsbD_extractLsb', BitVec.getLsbD_append]
    simp [hi]
  simp only [decodeTransaction, h₁, if_true, h₂, h₃]

theorem decodeTransaction_pack_read (a : RegAddr) (v : BusWord) :
    decodeTransaction (packTransaction false a v) = .rd a := by
  have h₁ : (packTransaction false a v).getLsbD 38 = false := by
    simp only [packTransaction, BitVec.getLsbD_append]; simp
  have h₂ : (packTransaction false a v).extractLsb' 32 6 = a := by
    apply BitVec.eq_of_getLsbD_eq
    intro i hi
    simp only [packTransaction, BitVec.getLsbD_extractLsb', BitVec.getLsbD_append]
    simp [hi]
  rw [decodeTransaction, h₁, h₂]
  rfl

/-- A transaction's bits are its three fields. -/
theorem pack_transaction_fields (t : Transaction) :
    packTransaction (t.getLsbD 38) (t.extractLsb' 32 6) (t.extractLsb' 0 32) = t := by
  apply BitVec.eq_of_getLsbD_eq
  intro i hi
  simp only [packTransaction, BitVec.getLsbD_extractLsb', BitVec.getLsbD_append]
  by_cases h₁ : i < 32
  · simp [h₁]
  · by_cases h₂ : i = 38
    · subst h₂; simp
    · have h₃ : i - 32 < 6 := by omega
      have h₄ : 32 + (i - 32) = i := by omega
      simp [h₁, h₃, h₄]

end Sys2Proof.Machine
end

