-- ==== Sys2Proof/Laws/Rounds.lean ====
section
/-! SUPPORT. The rounds: half-rounds add up to the round functions of R89, and progress made early changes
nothing of a command's result. -/

namespace Sys2Proof.Machine

/-! ### Progress, half by half -/

theorem State.advance_runF_first {s : State} {r k : Nat} (h : s.eng = .busy (.runF r) k .first) (hk : k < r) :
    s.advance = { s with mixed := subVec s.tbl s.n .forward s.draws s.st, draws := s.draws + s.n,
                         eng := .busy (.runF r) k .second } := by
  simp [State.advance, h, hk, State.halfForward]

theorem State.advance_runF_second {s : State} {r k : Nat} (h : s.eng = .busy (.runF r) k .second) (hk : k < r) :
    s.advance = { s with st := mixVec s.n s.cfg.matF s.mixed, rcnt := s.rcnt + 1,
                         eng := .busy (.runF r) (k + 1) .first } := by
  simp [State.advance, h, hk, State.halfForward]

theorem State.advance_runI_first {s : State} {r k : Nat} (h : s.eng = .busy (.runI r) k .first) (hk : k < r) :
    s.advance = { s with mixed := mixVec s.n s.cfg.matI s.st, eng := .busy (.runI r) k .second } := by
  simp [State.advance, h, hk, State.halfInverse]

theorem State.advance_runI_second {s : State} {r k : Nat} (h : s.eng = .busy (.runI r) k .second) (hk : k < r) :
    s.advance = { s with st := subVec s.tbl s.n .inverse s.draws s.mixed, draws := s.draws + s.n,
                         rcnt := s.rcnt + 1, eng := .busy (.runI r) (k + 1) .first } := by
  simp [State.advance, h, hk, State.halfInverse]

/-- Everything one half-round of progress can do. -/
theorem State.advance_cases (s : State) :
    s.advance = s ∨
    (∃ r k p, s.eng = .busy (.runF r) k p ∧ k < r ∧ s.advance = s.halfForward r k p) ∨
    (∃ r k p, s.eng = .busy (.runI r) k p ∧ k < r ∧ s.advance = s.halfInverse r k p) := by
  unfold State.advance
  split
  · rename_i r k p h
    by_cases hk : k < r
    · exact .inr (.inl ⟨r, k, p, h, hk, if_pos hk⟩)
    · exact .inl (if_neg hk)
  · rename_i r k p h
    by_cases hk : k < r
    · exact .inr (.inr ⟨r, k, p, h, hk, if_pos hk⟩)
    · exact .inl (if_neg hk)
  · exact .inl rfl

theorem State.advanceBy_add (a b : Nat) (s : State) : s.advanceBy (a + b) = (s.advanceBy a).advanceBy b := by
  induction a generalizing s with
  | zero => rw [Nat.zero_add]; rfl
  | succ a ih => rw [Nat.add_right_comm]; exact ih s.advance

/-- The running command stays the running command. -/
theorem State.advance_eng {s : State} {c : Command} {k : Nat} {p : Phase} (h : s.eng = .busy c k p) :
    ∃ k' p', s.advance.eng = .busy c k' p' := by
  rcases s.advance_cases with e | ⟨r, k, p, h', _, e⟩ | ⟨r, k, p, h', _, e⟩
  · exact ⟨k, p, by rw [e, h]⟩
  · rw [h] at h'
    cases h'
    cases p <;> exact ⟨_, _, by rw [e]; rfl⟩
  · rw [h] at h'
    cases h'
    cases p <;> exact ⟨_, _, by rw [e]; rfl⟩

/-- What no progress changes. -/
theorem State.advance_frame (s : State) :
    s.advance.cfg = s.cfg ∧ s.advance.tbl = s.tbl ∧ s.advance.ieDone = s.ieDone ∧ s.advance.ieErr = s.ieErr ∧
    s.advance.done = s.done ∧ s.advance.err = s.err ∧ s.advance.errCode = s.errCode ∧
    s.advance.tselIndex = s.tselIndex ∧ s.advance.tselSlot = s.tselSlot ∧ s.advance.tselBank = s.tselBank ∧
    s.advance.rdata = s.rdata ∧ s.advance.ack = s.ack ∧ s.advance.resetDone = s.resetDone ∧
    s.advance.events = s.events := by
  rcases s.advance_cases with e | ⟨r, k, p, _, _, e⟩ | ⟨r, k, p, _, _, e⟩
  · simp [e]
  · rw [e]; cases p <;> simp [State.halfForward]
  · rw [e]; cases p <;> simp [State.halfInverse]

theorem State.advanceBy_frame (m : Nat) (s : State) :
    (s.advanceBy m).cfg = s.cfg ∧ (s.advanceBy m).tbl = s.tbl ∧ (s.advanceBy m).ieDone = s.ieDone ∧
    (s.advanceBy m).ieErr = s.ieErr ∧ (s.advanceBy m).done = s.done ∧ (s.advanceBy m).err = s.err ∧
    (s.advanceBy m).errCode = s.errCode ∧ (s.advanceBy m).tselIndex = s.tselIndex ∧
    (s.advanceBy m).tselSlot = s.tselSlot ∧ (s.advanceBy m).tselBank = s.tselBank ∧
    (s.advanceBy m).rdata = s.rdata ∧ (s.advanceBy m).ack = s.ack ∧ (s.advanceBy m).resetDone = s.resetDone ∧
    (s.advanceBy m).events = s.events := by
  induction m generalizing s with
  | zero => simp [State.advanceBy]
  | succ m ih => simpa [State.advanceBy, s.advance_frame] using ih s.advance

/-- One half-round of progress leaves one half-round less, or is none. -/
theorem State.halvesLeft_advance (s : State) :
    (s.halvesLeft = 0 ∧ s.advance = s) ∨ s.halvesLeft = s.advance.halvesLeft + 1 := by
  unfold State.advance State.halvesLeft
  split
  · rename_i r k p h
    by_cases hk : k < r
    · right
      cases p <;> simp [hk, State.halfForward, halvesOf] <;> omega
    · left
      cases p <;> simp [hk, halvesOf] <;> omega
  · rename_i r k p h
    by_cases hk : k < r
    · right
      cases p <;> simp [hk, State.halfInverse, halvesOf] <;> omega
    · left
      cases p <;> simp [hk, halvesOf] <;> omega
  · simp

/-- Finishing the rounds after some progress is finishing the rounds. -/
theorem State.allRounds_advance (s : State) : s.advance.allRounds = s.allRounds := by
  unfold State.allRounds
  rcases s.halvesLeft_advance with ⟨h, e⟩ | h
  · rw [e]
  · rw [h]; rfl

/-! ### Whole rounds -/

/-- The forward rounds that are left, from the beginning of a round. -/
theorem State.advanceBy_runF {m : Nat} {s : State} {r k : Nat} (h : s.eng = .busy (.runF r) k .first)
    (hm : k + m ≤ r) : ∃ mixed, s.advanceBy (2 * m) =
      { s with st := roundsF s.cfg s.tbl m s.draws s.st, mixed := mixed, draws := s.draws + m * s.n,
               rcnt := s.rcnt + BitVec.ofNat 16 m, eng := .busy (.runF r) (k + m) .first } := by
  induction m generalizing s k with
  | zero => exact ⟨s.mixed, by cases s; simp_all [State.advanceBy, roundsF]⟩
  | succ m ih =>
    have hk : k < r := by omega
    obtain ⟨mixed, e⟩ := ih
      (s := { s with st := roundF s.cfg s.tbl s.draws s.st, mixed := subVec s.tbl s.n .forward s.draws s.st,
                     draws := s.draws + s.n, rcnt := s.rcnt + 1, eng := .busy (.runF r) (k + 1) .first })
      (k := k + 1) rfl (by omega)
    refine ⟨mixed, ?_⟩
    have step2 : s.advance.advance =
        { s with st := roundF s.cfg s.tbl s.draws s.st, mixed := subVec s.tbl s.n .forward s.draws s.st,
                 draws := s.draws + s.n, rcnt := s.rcnt + 1, eng := .busy (.runF r) (k + 1) .first } := by
      rw [State.advance_runF_first h hk]
      exact State.advance_runF_second (r := r) (k := k) rfl hk
    have hd : s.draws + s.n + m * s.n = s.draws + (m + 1) * s.n := by rw [Nat.add_mul]; omega
    have hr : s.rcnt + 1 + BitVec.ofNat 16 m = s.rcnt + BitVec.ofNat 16 (m + 1) := by
      rw [BitVec.ofNat_add]; ac_rfl
    have hkm : k + 1 + m = k + (m + 1) := by omega
    show (s.advance.advance).advanceBy (2 * m) = _
    rw [step2, e]
    simp only [roundsF, hkm]
    congr 1

/-- The inverse rounds that are left, from the beginning of a round. -/
theorem State.advanceBy_runI {m : Nat} {s : State} {r k : Nat} (h : s.eng = .busy (.runI r) k .first)
    (hm : k + m ≤ r) : ∃ mixed, s.advanceBy (2 * m) =
      { s with st := roundsI s.cfg s.tbl m s.draws s.st, mixed := mixed, draws := s.draws + m * s.n,
               rcnt := s.rcnt + BitVec.ofNat 16 m, eng := .busy (.runI r) (k + m) .first } := by
  induction m generalizing s k with
  | zero => exact ⟨s.mixed, by cases s; simp_all [State.advanceBy, roundsI]⟩
  | succ m ih =>
    have hk : k < r := by omega
    obtain ⟨mixed, e⟩ := ih
      (s := { s with st := roundI s.cfg s.tbl s.draws s.st, mixed := mixVec s.n s.cfg.matI s.st,
                     draws := s.draws + s.n, rcnt := s.rcnt + 1, eng := .busy (.runI r) (k + 1) .first })
      (k := k + 1) rfl (by omega)
    refine ⟨mixed, ?_⟩
    have step2 : s.advance.advance =
        { s with st := roundI s.cfg s.tbl s.draws s.st, mixed := mixVec s.n s.cfg.matI s.st,
                 draws := s.draws + s.n, rcnt := s.rcnt + 1, eng := .busy (.runI r) (k + 1) .first } := by
      rw [State.advance_runI_first h hk]
      exact State.advance_runI_second (r := r) (k := k) rfl hk
    have hd : s.draws + s.n + m * s.n = s.draws + (m + 1) * s.n := by rw [Nat.add_mul]; omega
    have hr : s.rcnt + 1 + BitVec.ofNat 16 m = s.rcnt + BitVec.ofNat 16 (m + 1) := by
      rw [BitVec.ofNat_add]; ac_rfl
    have hkm : k + 1 + m = k + (m + 1) := by omega
    show (s.advance.advance).advanceBy (2 * m) = _
    rw [step2, e]
    simp only [roundsI, hkm]
    congr 1

/-! ### Round functions -/

theorem roundsF_length {c : Config} {v : List Word} (tbl : Memory) (r d : Nat) (h : v.length = c.n) :
    (roundsF c tbl r d v).length = c.n := by
  induction r generalizing d v with
  | zero => exact h
  | succ r ih => exact ih _ (mixVec_length _ _ _)

theorem roundsI_length {c : Config} {v : List Word} (tbl : Memory) (r d : Nat) (h : v.length = c.n) :
    (roundsI c tbl r d v).length = c.n := by
  induction r generalizing d v with
  | zero => exact h
  | succ r ih => exact ih _ (subVec_length _ _ _ _ _)

/-- Forward rounds compose (R93). -/
theorem roundsF_add (c : Config) (tbl : Memory) (a b d : Nat) (v : List Word) :
    roundsF c tbl (a + b) d v = roundsF c tbl b (d + a * c.n) (roundsF c tbl a d v) := by
  induction a generalizing d v with
  | zero => simp [roundsF]
  | succ a ih =>
    rw [Nat.add_right_comm, roundsF, ih, roundsF]
    congr 1
    rw [Nat.add_mul]; omega

/-- Inverse rounds compose (R93). -/
theorem roundsI_add (c : Config) (tbl : Memory) (a b d : Nat) (v : List Word) :
    roundsI c tbl (a + b) d v = roundsI c tbl b (d + a * c.n) (roundsI c tbl a d v) := by
  induction a generalizing d v with
  | zero => simp [roundsI]
  | succ a ih =>
    rw [Nat.add_right_comm, roundsI, ih, roundsI]
    congr 1
    rw [Nat.add_mul]; omega

end Sys2Proof.Machine
end

