-- ==== Sys2Proof/Laws/Step.lean ====
section
/-! SUPPORT. What a transaction, a command and a step can do: every instruction answers a next state, and a step
is one of a few cases. -/

namespace Sys2Proof.Machine

/-- A read is one answer, and its only other effects are those of a TDATA read and of a draw. -/
theorem execRd_next (a : RegAddr) (s : State) : ∃ t, execRd a s = .next t := by
  unfold execRd
  split <;> exact ⟨_, rfl⟩

theorem execWr_next (a : RegAddr) (v : BusWord) (s : State) : ∃ t, execWr a v s = .next t := by
  unfold execWr
  split <;> exact ⟨_, rfl⟩

theorem State.command_next (c : Command) (f : State → State) (s : State) : ∃ t, s.command c f = .next t := by
  unfold State.command
  split
  · exact ⟨_, rfl⟩
  · split <;> exact ⟨_, rfl⟩

/-- The effect of a command on the data, as its meaning gives it to the command operation. -/
def effectOf : Command → State → State
  | .nop => fun t => t
  | .runF _ => State.allRounds
  | .runI _ => State.allRounds
  | .subF => State.subLayer .forward
  | .subI => State.subLayer .inverse
  | .mixF => State.mixLayer .forward
  | .mixI => State.mixLayer .inverse
  | .clrst => fun t => { t with st := List.replicate t.n 0 }

theorem exec_toInstr (c : Command) (s : State) : exec c.toInstr s = s.command c (effectOf c) := by
  cases c <;> rfl

/-- Every instruction answers a next state in every state. -/
theorem exec_next (i : Instr) (s : State) : ∃ t, exec i s = .next t := by
  have hc : ∀ c : Command, ∃ t, exec c.toInstr s = .next t := fun c => by
    rw [exec_toInstr]; exact State.command_next _ _ s
  cases i with
  | nop => exact hc .nop
  | runF r => exact hc (.runF r)
  | runI r => exact hc (.runI r)
  | subF => exact hc .subF
  | subI => exact hc .subI
  | mixF => exact hc .mixF
  | mixI => exact hc .mixI
  | clrst => exact hc .clrst
  | rd a => exact execRd_next a s
  | wr a v => exact execWr_next a v s

/-- The running command completes with its effect. -/
theorem exec_running {s : State} {c : Command} {k : Nat} {p : Phase} (h : s.eng = .busy c k p) :
    exec c.toInstr s = .next (effectOf c s).finish := by
  rw [exec_toInstr, State.command_of_running _ h]

/-- A command from Idle is accepted and completes. -/
theorem exec_idle {s : State} (c : Command) (h : s.eng = .idle) :
    exec c.toInstr s = .next (effectOf c (s.accept c)).finish := by
  rw [exec_toInstr, State.command_of_idle _ _ h]

/-- No command's effect touches the tables, the enables, the flags, TSEL, the port or the events. -/
theorem effectOf_frame (c : Command) (s : State) :
    (effectOf c s).cfg = s.cfg ∧ (effectOf c s).tbl = s.tbl ∧ (effectOf c s).ieDone = s.ieDone ∧
    (effectOf c s).ieErr = s.ieErr ∧ (effectOf c s).done = s.done ∧ (effectOf c s).err = s.err ∧
    (effectOf c s).errCode = s.errCode ∧ (effectOf c s).tselIndex = s.tselIndex ∧
    (effectOf c s).tselSlot = s.tselSlot ∧ (effectOf c s).tselBank = s.tselBank ∧
    (effectOf c s).rdata = s.rdata ∧ (effectOf c s).ack = s.ack ∧ (effectOf c s).resetDone = s.resetDone ∧
    (effectOf c s).events = s.events := by
  cases c <;> simp [effectOf, State.allRounds, State.advanceBy_frame]

/-- What an instruction leaves to the outside world: the build parameters, whether the engine has been reset,
and the events. -/
theorem exec_outside {i : Instr} {s t : State} (h : exec i s = .next t) :
    t.cfg = s.cfg ∧ t.resetDone = s.resetDone ∧ t.events = s.events := by
  have hc : ∀ c f, (∀ u : State, (f u).cfg = u.cfg ∧ (f u).resetDone = u.resetDone ∧ (f u).events = u.events) →
      s.command c f = .next t → t.cfg = s.cfg ∧ t.resetDone = s.resetDone ∧ t.events = s.events := by
    intro c f hf e
    rcases State.command_cases e with ⟨_, rfl⟩ | ⟨k, p, _, rfl⟩ | ⟨c', k, p, _, _, rfl⟩
    · simp [hf]
    · simp [hf]
    · simp
  have he : ∀ c : Command, exec c.toInstr s = .next t → t.cfg = s.cfg ∧ t.resetDone = s.resetDone ∧ t.events = s.events := by
    intro c e
    rw [exec_toInstr] at e
    exact hc c _ (fun u => by simp [effectOf_frame]) e
  cases i with
  | nop => exact he .nop h
  | runF r => exact he (.runF r) h
  | runI r => exact he (.runI r) h
  | subF => exact he .subF h
  | subI => exact he .subI h
  | mixF => exact he .mixF h
  | mixI => exact he .mixI h
  | clrst => exact he .clrst h
  | rd a =>
    simp only [exec, execRd] at h
    split at h <;> injection h with h <;> subst h <;>
      (try simp only [State.readTdata, State.readSt]) <;> (try split) <;> (try split) <;> simp
  | wr a v =>
    simp only [exec, execWr] at h
    split at h <;> injection h with h <;> subst h <;>
      (try simp only [State.writeStatus, State.writeCmd, State.writeTsel, State.writeTdata, State.writeSt]) <;>
      (try split) <;> (try split) <;> simp

/-- Everything a step can do. -/
theorem step_cases {s t : State} (h : step s = .next t) :
    (∃ e rest, s.events = e :: rest ∧
      ((s.resetDone = true ∧ onEvent e (s.popEvent rest) = .next t) ∨
       (e = .powerUp ∧ t = (s.popEvent rest).powerUp) ∨ (e = .reset ∧ t = (s.popEvent rest).resetEdge))) ∨
    (s.events = [] ∧ s.resetDone = true ∧ engineCompletes (s.popEvent []) = .next t) := by
  unfold step at h
  split at h
  · rename_i e rest he hr
    exact .inl ⟨e, rest, he, .inl ⟨hr, h⟩⟩
  · rename_i e rest he hr
    refine .inl ⟨e, rest, he, .inr ?_⟩
    cases e <;> simp [onEventBeforeReset] at h <;> simp [h]
  · rename_i he hr
    exact .inr ⟨he, hr, h⟩
  · simp at h

/-- Everything an event after reset can do. -/
theorem onEvent_cases {e : Event} {s t : State} (h : onEvent e s = .next t) :
    (e = .powerUp ∧ t = s.powerUp) ∨ (e = .reset ∧ t = s.resetEdge) ∨
    (∃ w, e = .txn w ∧ exec (decodeTransaction w) s = .next t) ∨
    (e = .advance ∧ t = s.advance) ∨ (e = .complete ∧ engineCompletes s = .next t) := by
  cases e <;> simp_all [onEvent]

/-- Everything the completion step can do. -/
theorem engineCompletes_cases {s t : State} (h : engineCompletes s = .next t) :
    (s.eng = .idle ∧ t = s) ∨ (∃ c k p, s.eng = .busy c k p ∧ t = (effectOf c s).finish) := by
  unfold engineCompletes at h
  split at h
  · exact .inl ⟨by assumption, by simpa using h.symm⟩
  · rename_i c k p e
    rw [exec_running e] at h
    exact .inr ⟨c, k, p, e, by simpa using h.symm⟩

end Sys2Proof.Machine
end

