-- ==== Sys2Proof/Laws/Invariant.lean ====
section
/-! SUPPORT. Which shared operations keep the invariant. -/

namespace Sys2Proof.Machine

/-- An update that leaves alone what the invariant speaks of keeps it. -/
theorem State.Inv.of_same {s t : State} (hi : s.Inv) (hcfg : t.cfg = s.cfg) (hst : t.st.length = s.st.length)
    (hmixed : t.mixed.length = s.mixed.length) (htbl : t.tbl = s.tbl)
    (herr : t.errCode = .none ↔ t.err = false) (heng : engOk t) : t.Inv where
  cfgOk := by rw [hcfg]; exact hi.cfgOk
  stLength := by rw [hst, hi.stLength]; simp [State.n, hcfg]
  mixedLength := by rw [hmixed, hi.mixedLength]; simp [State.n, hcfg]
  tblOk := by rw [htbl]; exact hi.tblOk
  tblWithin := by rw [htbl, State.n, hcfg]; exact hi.tblWithin
  errOk := herr
  eng := heng

/-- The engine part of the invariant of an Idle engine. -/
theorem engOk_of_idle {s : State} (h : s.eng = .idle) : engOk s := by simp [engOk, h]

theorem State.Inv.raise {s : State} {e : ErrCode} (hi : s.Inv) (he : e ≠ .none) : (s.raise e).Inv := by
  refine hi.of_same rfl rfl rfl rfl ?_ hi.eng
  have := hi.errOk
  cases h : s.err <;> simp_all

theorem State.Inv.acked {s : State} (hi : s.Inv) : s.acked.Inv :=
  hi.of_same rfl rfl rfl rfl hi.errOk hi.eng

theorem State.Inv.answer {s : State} (hi : s.Inv) (v : BusWord) : (s.answer v).Inv :=
  hi.of_same rfl rfl rfl rfl hi.errOk hi.eng

theorem State.Inv.popEvent {s : State} (hi : s.Inv) (l : List Event) : (s.popEvent l).Inv :=
  hi.of_same rfl rfl rfl rfl hi.errOk hi.eng

theorem State.Inv.ackErr {s : State} (hi : s.Inv) (b : Bool) : (s.ackErr b).Inv :=
  hi.of_same rfl rfl rfl rfl (by cases b <;> simp [hi.errOk]) hi.eng

theorem engOk_ackDone {s : State} (b : Bool) (h : engOk s) : engOk (s.ackDone b) := by
  cases he : s.eng with
  | idle => exact engOk_of_idle he
  | busy c k p =>
    simp only [engOk, he, State.ackDone_eng] at h ⊢
    exact ⟨by simp [h.1], h.2⟩

theorem State.Inv.ackDone {s : State} (hi : s.Inv) (b : Bool) : (s.ackDone b).Inv :=
  hi.of_same rfl rfl rfl rfl hi.errOk (engOk_ackDone b hi.eng)

/-- Acceptance of a command CMD can hold. -/
theorem State.Inv.accept {s : State} {c : Command} (hi : s.Inv) (hc : c.WellFormed) : (s.accept c).Inv := by
  refine hi.of_same rfl rfl rfl rfl hi.errOk ?_
  refine ⟨rfl, hc, ?_⟩
  cases c <;> simp [progressOk, isRun]

theorem State.Inv.finish {s : State} (hi : s.Inv) : s.finish.Inv :=
  hi.of_same rfl rfl rfl rfl hi.errOk trivial

theorem State.Inv.powerUp {s : State} (hi : s.Inv) : s.powerUp.Inv where
  cfgOk := hi.cfgOk
  stLength := hi.stLength
  mixedLength := hi.mixedLength
  tblOk := rfl
  tblWithin := rfl
  errOk := hi.errOk
  eng := hi.eng

theorem State.Inv.resetEdge {s : State} (hi : s.Inv) : s.resetEdge.Inv where
  cfgOk := hi.cfgOk
  stLength := by simp
  mixedLength := by simp
  tblOk := hi.tblOk
  tblWithin := hi.tblWithin
  errOk := by simp
  eng := trivial

/-- Progress inside a command keeps the invariant. -/
theorem State.Inv.advance {s : State} (hi : s.Inv) : s.advance.Inv := by
  rcases s.advance_cases with e | ⟨r, k, p, he, hk, e⟩ | ⟨r, k, p, he, hk, e⟩
  · rwa [e]
  · have h := hi.eng
    simp only [engOk, he, progressOk] at h
    rw [e]
    cases p
    · refine hi.of_same rfl rfl ?_ rfl hi.errOk ⟨h.1, h.2.1, h.2.2.1, fun x => absurd x (by omega), h.2.2.2.2⟩
      simp [State.halfForward, subVec_length, hi.mixedLength]
    · refine hi.of_same rfl ?_ rfl rfl hi.errOk ⟨h.1, h.2.1, by omega, fun _ => rfl, ?_⟩
      · simp [State.halfForward, mixVec_length, hi.stLength]
      · simp [State.halfForward, h.2.2.2.2, BitVec.ofNat_add]
  · have h := hi.eng
    simp only [engOk, he, progressOk] at h
    rw [e]
    cases p
    · refine hi.of_same rfl rfl ?_ rfl hi.errOk ⟨h.1, h.2.1, h.2.2.1, fun x => absurd x (by omega), h.2.2.2.2⟩
      simp [State.halfInverse, mixVec_length, hi.mixedLength]
    · refine hi.of_same rfl ?_ rfl rfl hi.errOk ⟨h.1, h.2.1, by omega, fun _ => rfl, ?_⟩
      · simp [State.halfInverse, subVec_length, hi.stLength]
      · simp [State.halfInverse, h.2.2.2.2, BitVec.ofNat_add]

theorem State.Inv.advanceBy {s : State} (hi : s.Inv) (m : Nat) : (s.advanceBy m).Inv := by
  induction m generalizing s with
  | zero => exact hi
  | succ m ih => exact ih hi.advance

/-- A command that completes leaves an Idle engine that keeps the invariant. -/
theorem State.Inv.completed {s : State} (hi : s.Inv) (c : Command) : (effectOf c s).finish.Inv := by
  cases c with
  | runF r => exact (hi.advanceBy _).finish
  | runI r => exact (hi.advanceBy _).finish
  | nop => exact hi.finish
  | subF => exact hi.of_same rfl (by simp [effectOf, subVec_length, hi.stLength]) rfl rfl hi.errOk trivial
  | subI => exact hi.of_same rfl (by simp [effectOf, subVec_length, hi.stLength]) rfl rfl hi.errOk trivial
  | mixF => exact hi.of_same rfl (by simp [effectOf, mixVec_length, hi.stLength]) rfl rfl hi.errOk trivial
  | mixI => exact hi.of_same rfl (by simp [effectOf, mixVec_length, hi.stLength]) rfl rfl hi.errOk trivial
  | clrst => exact hi.of_same rfl (by simp [effectOf, hi.stLength]) rfl rfl hi.errOk trivial

end Sys2Proof.Machine
end

