-- ==== Sys2Proof/Laws/PerInstr.lean ====
section
/-! SUPPORT. A statement about every instruction, one lemma per constructor: an encoding fits the bits the
opcode table gives its row. -/

namespace Sys2Proof.Laws.EncodeFits

/-- The encoding is 32 bits of a command word or 39 bits of a host transaction. -/
def Statement (i : Instr) : Prop :=
  ((encode i).1 = 32 ∧ (encode i).2 < 2 ^ 32) ∨ ((encode i).1 = 40 ∧ (encode i).2 < 2 ^ 39)

theorem nop : Statement .nop := .inl ⟨rfl, BitVec.isLt _⟩
theorem runF (r : Nat) : Statement (.runF r) := .inl ⟨rfl, BitVec.isLt _⟩
theorem runI (r : Nat) : Statement (.runI r) := .inl ⟨rfl, BitVec.isLt _⟩
theorem subF : Statement .subF := .inl ⟨rfl, BitVec.isLt _⟩
theorem subI : Statement .subI := .inl ⟨rfl, BitVec.isLt _⟩
theorem mixF : Statement .mixF := .inl ⟨rfl, BitVec.isLt _⟩
theorem mixI : Statement .mixI := .inl ⟨rfl, BitVec.isLt _⟩
theorem clrst : Statement .clrst := .inl ⟨rfl, BitVec.isLt _⟩
theorem rd (addr : RegAddr) : Statement (.rd addr) := .inr ⟨rfl, BitVec.isLt _⟩
theorem wr (addr : RegAddr) (wdata : BusWord) : Statement (.wr addr wdata) := .inr ⟨rfl, BitVec.isLt _⟩

end Sys2Proof.Laws.EncodeFits
end

