-- ==== Sys2Proof/Laws/Program.lean ====
section
/-! SUPPORT. The pseudo-instruction POLL: its events run to the end, each read but the last finds the engine Busy,
and the last finds it Idle. Nothing an instruction does depends on the events still to come. -/

namespace Sys2Proof.Machine

/-! ### What happens now does not depend on what is still to come -/

theorem State.advance_events (s : State) (es : List Event) :
    ({ s with events := es } : State).advance = { s.advance with events := es } := by
  cases h : s.eng with
  | idle => simp [State.advance, h]
  | busy c k p =>
    cases c <;> simp only [State.advance, h]
    all_goals split
    all_goals first | rfl | (cases p <;> rfl) | (cases s; simp only at h; subst h; rfl)

theorem State.advanceBy_events (m : Nat) (s : State) (es : List Event) :
    ({ s with events := es } : State).advanceBy m = { s.advanceBy m with events := es } := by
  induction m generalizing s with
  | zero => rfl
  | succ m ih => rw [State.advanceBy, State.advance_events, ih]; rfl

theorem effectOf_events (c : Command) (s : State) (es : List Event) :
    effectOf c { s with events := es } = { effectOf c s with events := es } := by
  cases c with
  | runF r => exact State.advanceBy_events _ s es
  | runI r => exact State.advanceBy_events _ s es
  | nop => rfl
  | subF => rfl
  | subI => rfl
  | mixF => rfl
  | mixI => rfl
  | clrst => rfl

theorem State.readTdata_events (s : State) (es : List Event) :
    ({ s with events := es } : State).readTdata = { s.readTdata with events := es } := by
  unfold State.readTdata
  simp only [show badSlot { s with events := es } = badSlot s from rfl,
    show State.isBusy { s with events := es } = s.isBusy from rfl]
  split
  · rfl
  · split <;> rfl

theorem State.readSt_events (j : Nat) (s : State) (es : List Event) :
    ({ s with events := es } : State).readSt j = { s.readSt j with events := es } := by
  unfold State.readSt
  simp only [show State.isBusy { s with events := es } = s.isBusy from rfl]
  split <;> rfl

theorem State.writeCmd_events (v : BusWord) (s : State) (es : List Event) :
    ({ s with events := es } : State).writeCmd v = { s.writeCmd v with events := es } := by
  unfold State.writeCmd
  simp only [show State.isBusy { s with events := es } = s.isBusy from rfl]
  split
  · rfl
  · split <;> rfl

theorem State.writeTsel_events (v : BusWord) (s : State) (es : List Event) :
    ({ s with events := es } : State).writeTsel v = { s.writeTsel v with events := es } := by
  unfold State.writeTsel
  simp only [show State.isBusy { s with events := es } = s.isBusy from rfl]
  split <;> rfl

theorem State.writeTdata_events (v : BusWord) (s : State) (es : List Event) :
    ({ s with events := es } : State).writeTdata v = { s.writeTdata v with events := es } := by
  unfold State.writeTdata
  simp only [show badSlot { s with events := es } = badSlot s from rfl,
    show State.isBusy { s with events := es } = s.isBusy from rfl]
  split
  · rfl
  · split <;> rfl

theorem State.writeSt_events (j : Nat) (v : BusWord) (s : State) (es : List Event) :
    ({ s with events := es } : State).writeSt j v = { s.writeSt j v with events := es } := by
  unfold State.writeSt
  simp only [show State.isBusy { s with events := es } = s.isBusy from rfl]
  split <;> rfl

/-- An instruction does the same whatever events are still to come. -/
theorem exec_events {i : Instr} {s t : State} (es : List Event) (h : exec i s = .next t) :
    exec i { s with events := es } = .next { t with events := es } := by
  have hc : ∀ c : Command, exec c.toInstr s = .next t →
      exec c.toInstr { s with events := es } = .next { t with events := es } := by
    intro c h
    rw [exec_toInstr] at h ⊢
    rcases State.command_cases h with ⟨e, rfl⟩ | ⟨k, p, e, rfl⟩ | ⟨c', k, p, e, hne, rfl⟩
    · rw [State.command_of_idle (s := { s with events := es }) _ _ e]
      exact congrArg (fun u : State => Host.Outcome.next u.finish) (effectOf_events c (s.accept c) es)
    · rw [State.command_of_running (s := { s with events := es }) _ e, effectOf_events]
      rfl
    · rw [State.command_of_other (s := { s with events := es }) _ e hne]
      rfl
  cases i with
  | nop => exact hc .nop h
  | runF r => exact hc (.runF r) h
  | runI r => exact hc (.runI r) h
  | subF => exact hc .subF h
  | subI => exact hc .subI h
  | mixF => exact hc .mixF h
  | mixI => exact hc .mixI h
  | clrst => exact hc .clrst h
  | rd a =>
    have h : execRd a s = .next t := h
    show execRd a { s with events := es } = .next { t with events := es }
    simp only [execRd, show ({ s with events := es } : State).n = s.n from rfl] at h ⊢
    split at h <;> injection h with h <;> subst h <;> try rfl
    · exact congrArg Host.Outcome.next (State.readTdata_events s es)
    · exact congrArg Host.Outcome.next (State.readSt_events _ s es)
  | wr a v =>
    have h : execWr a v s = .next t := h
    show execWr a v { s with events := es } = .next { t with events := es }
    simp only [execWr, show ({ s with events := es } : State).n = s.n from rfl] at h ⊢
    split at h <;> injection h with h <;> subst h <;> try rfl
    · exact congrArg (fun u : State => Host.Outcome.next u.acked) (State.writeCmd_events v s es)
    · exact congrArg (fun u : State => Host.Outcome.next u.acked) (State.writeTsel_events v s es)
    · exact congrArg (fun u : State => Host.Outcome.next u.acked) (State.writeTdata_events v s es)
    · exact congrArg (fun u : State => Host.Outcome.next u.acked) (State.writeSt_events _ v s es)

/-- An ordinary event goes on, leaves the events to come alone, and does the same whatever they are. -/
theorem onEvent_ordinary {e : Event} (s : State) (h : isOrdinary e = true) :
    ∃ t, onEvent e s = .next t ∧ t.events = s.events ∧ t.resetDone = s.resetDone ∧
      ∀ es, onEvent e { s with events := es } = .next { t with events := es } := by
  cases e with
  | txn w =>
    obtain ⟨t, ht⟩ := exec_next (decodeTransaction w) s
    exact ⟨t, ht, (exec_outside ht).2.2, (exec_outside ht).2.1, fun es => exec_events es ht⟩
  | advance =>
    exact ⟨s.advance, rfl, by simp [State.advance_frame], by simp [State.advance_frame],
      fun es => congrArg Host.Outcome.next (s.advance_events es)⟩
  | complete =>
    cases hb : s.eng with
    | idle =>
      exact ⟨s, by simp [onEvent, engineCompletes, hb], rfl, rfl, fun es => by simp [onEvent, engineCompletes, hb]⟩
    | busy c k p =>
      obtain ⟨t, ht⟩ := exec_next c.toInstr s
      refine ⟨t, by simp [onEvent, engineCompletes, hb, ht], (exec_outside ht).2.2, (exec_outside ht).2.1, fun es => ?_⟩
      have := exec_events es ht
      simp only [onEvent, engineCompletes]
      cases s
      simp only at hb
      subst hb
      exact this
  | powerUp => simp [isOrdinary] at h
  | reset => simp [isOrdinary] at h
  | narrow o n => simp [isOrdinary] at h

/-! ### Runs of ordinary events -/

/-- After reset a step is its next event. -/
theorem step_event {s : State} {e : Event} {es : List Event} (hr : s.resetDone = true) (he : s.events = e :: es) :
    step s = onEvent e (s.popEvent es) := by
  simp only [step, he, hr]

/-- The steps of a run whose events are all ordinary lead where the events lead. -/
theorem run_after {s : State} {es : List Event} (hr : s.resetDone = true) (ho : ∀ e, e ∈ es → isOrdinary e = true) :
    Sys2Proof.core.run es.length { s with events := es } = .next { s.after es with events := [] } := by
  induction es generalizing s with
  | nil => rfl
  | cons e es ih =>
    obtain ⟨t, ht, hev, hrt, hany⟩ := onEvent_ordinary (s.popEvent []) (ho e List.mem_cons_self)
    have hstep : Sys2Proof.core.step { s with events := e :: es } = .next { t with events := es } := by
      exact (step_event (s := { s with events := e :: es }) hr rfl).trans (hany es)
    have hafter : s.after (e :: es) = t.after es := by simp only [State.after, ht]
    rw [hafter]
    simp only [List.length_cons, Host.Core.run]
    rw [hstep]
    exact ih (hrt.trans hr) fun e he => ho e (List.mem_cons_of_mem _ he)

theorem State.after_append {es fs : List Event} (s : State) (ho : ∀ e, e ∈ es → isOrdinary e = true) :
    s.after (es ++ fs) = (s.after es).after fs := by
  induction es generalizing s with
  | nil => rfl
  | cons e es ih =>
    obtain ⟨t, ht, _⟩ := onEvent_ordinary (s.popEvent []) (ho e List.mem_cons_self)
    simp only [List.cons_append, State.after, ht]
    exact ih t fun e he => ho e (List.mem_cons_of_mem _ he)

/-! ### POLL -/

/-- The STATUS read of POLL returns the STATUS word and leaves the engine alone. -/
theorem after_statusRead (s : State) :
    s.after [statusRead] = (s.popEvent []).answer (statusWord s) := rfl

theorem statusWord_busy (s : State) : (statusWord s).getLsbD 0 = s.isBusy := by
  have h : (statusWord s).toNat % 2 = s.isBusy.toNat := by
    rw [statusWord_toNat]
    cases s.isBusy <;> simp <;> omega
  rw [BitVec.getLsbD, Nat.testBit_zero, h]
  cases s.isBusy <;> rfl

/-- The read tells whether the engine is Busy. -/
theorem readsBusy_eq (s : State) : readsBusy s = s.isBusy := statusWord_busy s

theorem Wait.events_ordinary (w : Wait) : ∀ e, e ∈ w.events → isOrdinary e = true := by
  intro e h
  rw [Wait.events, List.mem_append, List.mem_replicate] at h
  rcases h with ⟨_, rfl⟩ | h
  · rfl
  · split at h
    · rw [List.mem_singleton.1 h]; rfl
    · exact absurd h List.not_mem_nil

/-- POLL's events are reads and progress. -/
theorem pollEvents_ordinary (pace : List Wait) (s : State) : ∀ e, e ∈ pollEvents pace s → isOrdinary e = true := by
  induction pace generalizing s with
  | nil =>
    intro e h
    unfold pollEvents at h
    split at h
    · rcases List.mem_cons.1 h with rfl | h
      · rfl
      · rcases List.mem_cons.1 h with rfl | h
        · rfl
        · rw [List.mem_singleton.1 h]; rfl
    · rw [List.mem_singleton.1 h]; rfl
  | cons w pace ih =>
    intro e h
    rcases List.mem_append.1 h with h | h
    · exact w.events_ordinary e h
    · rcases List.mem_cons.1 h with rfl | h
      · rfl
      · split at h
        · exact ih _ e h
        · exact absurd h List.not_mem_nil

/-- A read that finds the engine Idle. -/
theorem after_statusRead_idle {s : State} (h : s.isBusy = false) :
    (s.after [statusRead]).eng = .idle ∧ (s.after [statusRead]).rdata.getLsbD 0 = false :=
  ⟨State.isBusy_eq_false_iff.1 h, (statusWord_busy s).trans h⟩

/-- A Busy engine that completes is Idle. -/
theorem after_complete_isBusy {s : State} (h : s.isBusy = true) : (s.after [.complete]).isBusy = false := by
  cases hb : s.eng with
  | idle => simp [State.isBusy, hb] at h
  | busy c k p =>
    have hb' : (s.popEvent []).eng = .busy c k p := hb
    have : onEvent .complete (s.popEvent []) = .next (effectOf c (s.popEvent [])).finish := by
      simp only [onEvent, engineCompletes, hb']
      exact exec_running hb'
    simp only [State.after, this]
    rfl

/-- After the events of POLL the engine is Idle, and the value read last has BUSY = 0 (R52). -/
theorem after_pollEvents (pace : List Wait) (s : State) :
    (s.after (pollEvents pace s)).eng = .idle ∧ (s.after (pollEvents pace s)).rdata.getLsbD 0 = false := by
  induction pace generalizing s with
  | nil =>
    rw [pollEvents, readsBusy_eq]
    cases h : s.isBusy
    · exact after_statusRead_idle h
    · have e : s.after [statusRead, .complete, statusRead] =
          ((s.after [statusRead]).after [.complete]).after [statusRead] := by
        rw [← State.after_append (es := [.complete]) _ (by simp [isOrdinary])]
        rfl
      show (s.after [statusRead, .complete, statusRead]).eng = _ ∧ (s.after [statusRead, .complete, statusRead]).rdata.getLsbD 0 = _
      rw [e]
      exact after_statusRead_idle (after_complete_isBusy h)
  | cons w pace ih =>
    rw [pollEvents, State.after_append _ w.events_ordinary, readsBusy_eq]
    cases h : (s.after w.events).isBusy
    · exact after_statusRead_idle h
    · exact ih _

/-- POLL runs to its end: every read before the last returned BUSY = 1 (`pollEvents`), the last returns 0. -/
theorem run_pollEvents (pace : List Wait) {s : State} (hr : s.resetDone = true) : ∃ t : State,
    Sys2Proof.core.run (pollEvents pace s).length { s with events := pollEvents pace s } = .next t ∧
      t.eng = .idle ∧ t.rdata.getLsbD 0 = false :=
  ⟨_, run_after hr (pollEvents_ordinary pace s), after_pollEvents pace s⟩

end Sys2Proof.Machine
end

