-- ==== Sys2Proof/Machine/Timing.lean ====
section
/-! DEFINITION. The nominal durations of R122. Informative: no step depends on them (log entry 11). -/

namespace Sys2Proof.Machine

/-- The nominal number of clock cycles from acceptance to completion (R122); an engine may take longer. -/
def nominalCycles (c : Config) : Command → Nat
  | .subF => c.latSub
  | .subI => c.latSub
  | .mixF => c.latMix
  | .mixI => c.latMix
  | .runF r => if r = 0 then 1 else r * (c.latSub + c.latMix)
  | .runI r => if r = 0 then 1 else r * (c.latSub + c.latMix)
  | .nop => 1
  | .clrst => 1

end Sys2Proof.Machine
end

