-- ==== Sys2Proof/Tests/Slice0.lean ====
section
/-! SUPPORT. The model's own tests and the witnesses of the obligations' hypotheses. Expected values come from
95_test_vectors.md (the vector's number stands beside each test), from the words of R46 and R45 written out bit by
bit, or from hand calculation by the rule named. -/

namespace Sys2Proof.Tests

open Sys2Proof.Machine

/-! ### Small engines (95_test_vectors.md section 2, the row windows for N = 8) -/

/-- `J + I` for N = 8. -/
def matJI : List Word := [0xFE, 0xFD, 0xFB, 0xF7, 0xEF, 0xDF, 0xBF, 0x7F]

/-- `U` for N = 8. -/
def matU : List Word := [0xFF, 0xFE, 0xFC, 0xF8, 0xF0, 0xE0, 0xC0, 0x80]

/-- `Bd` for N = 8. -/
def matBd : List Word := [0x03, 0x06, 0x0C, 0x18, 0x30, 0x60, 0xC0, 0x80]

/-- Configuration A, N = 8. -/
def cfgA : Config := ⟨.w8, matJI, matJI, 1, 1⟩

/-- Configuration B, N = 8. -/
def cfgB : Config := ⟨.w8, matU, matBd, 1, 1⟩

/-- A 12-word engine and a 16-word engine; their matrices play no part in the tests. -/
def cfg12 : Config := ⟨.w12, List.replicate 12 0, List.replicate 12 0, 1, 1⟩
def cfg16 : Config := ⟨.w16, List.replicate 16 0, List.replicate 16 0, 1, 1⟩

/-- The state vector s of 95_test_vectors.md section 3.4. -/
def vecS : List Word := [0x0123, 0x4567, 0x89AB, 0xCDEF, 0xFFFF, 0x0000, 0x8000, 0x0001]

/-- After reset, configuration A; after reset, configuration B with ST = s. -/
def engA : State := State.resetOf cfgA
def engB : State := { State.resetOf cfgB with st := vecS }

/-- Table entries of bank `b`, slot j listing `v j` at index `x j` for j below N. -/
def entries (b : Dir) (x v : List Word) : Memory :=
  (List.range 8).map fun j => (entryAddr b j (wordAt x j), wordAt v j)

/-- An engine with a command running. -/
def running (c : Command) (k : Nat) (p : Phase) (rcnt : Word) : State :=
  { engA with eng := .busy c k p, rcnt := rcnt }

/-- The outcome is a next state with the property. -/
def leaves (o : Host.Outcome State Fault Refusal) (p : State → Bool) : Bool :=
  match o with
  | .next t => p t
  | .fault _ => false
  | .refused _ => false

/-- The outcome is a fault; the outcome is a refusal. -/
def faultsWith (o : Host.Outcome State Fault Refusal) (f : Fault) : Bool :=
  match o with
  | .fault g => decide (g = f)
  | .next _ => false
  | .refused _ => false
def refusesWith (o : Host.Outcome State Fault Refusal) (r : Refusal) : Bool :=
  match o with
  | .refused q => decide (q = r)
  | .next _ => false
  | .fault _ => false

/-! ### WellFormed smoke: the one check refuses, in each form that has it (R47) -/

theorem smoke_runF_count : Instr.wf (.runF 65536) = false := by decide
theorem smoke_runI_count : Instr.wf (.runI 65536) = false := by decide
theorem smoke_largest_counts : Instr.wf (.runF 65535) = true ∧ Instr.wf (.runI 65535) = true := by decide

/-! ### Decoding: one word per row of the opcode table, written out from R44 (IMM, RSV, D, OP) and R45 (we, addr,
wdata), and the words no row has (95_test_vectors.md section 3.1) -/

theorem test_decode_nop : decodeTableWord 32 0b0000000000000000_00000000000_0_0000 = some .nop := by decide
theorem test_decode_runF : decodeTableWord 32 0b0000000000001100_00000000000_0_0001 = some (.runF 12) := by decide
theorem test_decode_runI : decodeTableWord 32 0b1000000000000000_00000000000_1_0001 = some (.runI 32768) := by decide
theorem test_decode_subF : decodeTableWord 32 0b0000000000000000_00000000000_0_0010 = some .subF := by decide
theorem test_decode_subI : decodeTableWord 32 0b0000000000000000_00000000000_1_0010 = some .subI := by decide
theorem test_decode_mixF : decodeTableWord 32 0b0000000000000000_00000000000_0_0011 = some .mixF := by decide
theorem test_decode_mixI : decodeTableWord 32 0b0000000000000000_00000000000_1_0011 = some .mixI := by decide
theorem test_decode_clrst : decodeTableWord 32 0b0000000000000000_00000000000_0_0100 = some .clrst := by decide
theorem test_decode_rd :
    decodeTableWord 40 0b0_000010_00000000000000000000000000000000 = some (.rd 0x02) ∧
    decodeTableWord 39 0b0_111111_11111111111111111111111111111111 = some (.rd 0x3F) := by decide
theorem test_decode_wr :
    decodeTableWord 40 0b1_000011_00000000000011000000000000000001 = some (.wr 0x03 0x000C0001) := by decide
theorem test_decode_badcmd :
    [0x10, 0x14, 0x05, 0x0F, 0x1F, 0x20, 0x8000, 0xFFE1, 0x10000, 0x10002, 0x10004, 0xFFFFFFFF, 0x21].all
      (fun w => (decodeTableWord 32 w).isNone) = true := by decide
theorem test_encode_words :
    encode (.runI 32768) = (32, 0x80000011) ∧ encode .mixI = (32, 0x13) ∧ encode .clrst = (32, 4) ∧
    encode (.wr 0x18 1) = (40, 0x5800000001) ∧ encode (.rd 0x05) = (40, 0x0500000000) := by decide

/-! ### One step of each instruction -/

/-- SB3 (configuration A, s): slot 4 wraps 0xFFFF + 5 to 0x0004. -/
theorem test_subF_vector : leaves (exec .subF { engA with
      st := vecS, tbl := entries .forward vecS [0x0124, 0x4569, 0x89AE, 0xCDF3, 0x0004, 0x0006, 0x8007, 0x0009] })
    (fun t => t.st = [0x0124, 0x4569, 0x89AE, 0xCDF3, 0x0004, 0x0006, 0x8007, 0x0009] ∧ t.done = true ∧ t.rcnt = 0)
    = true := by decide

/-- R76: the bank is bank 0; entries of bank 1 at the same indexes are not what SUB.F reads (R71). -/
theorem test_subF_does_not_read_bank_one : leaves (exec .subF { engA with
      tbl := entries .forward (List.replicate 8 0) [1, 2, 3, 4, 5, 6, 7, 8] ++
        entries .inverse (List.replicate 8 0) (List.replicate 8 0xFFFF) })
    (fun t => t.st = [1, 2, 3, 4, 5, 6, 7, 8]) = true := by decide

/-- SB5: SUB.I on SB4's result, configuration B. -/
theorem test_subI_vector : leaves (exec .subI { engB with
      st := [0x0347, 0x88CC, 0x1054, 0x9FDB, 0xFAFA, 0x0606, 0x0706, 0x080A]
      tbl := entries .inverse [0x0347, 0x88CC, 0x1054, 0x9FDB, 0xFAFA, 0x0606, 0x0706, 0x080A] vecS })
    (fun t => t.st = vecS ∧ t.done = true) = true := by decide

/-- DF3 (`U`, s) and DF1 (`J + I`, s). -/
theorem test_mixF_vector : leaves (exec .mixF engB)
    (fun t => t.st = [0x7FFE, 0x7EDD, 0x3BBA, 0xB211, 0x7FFE, 0x8001, 0x8001, 0x0001] ∧ t.rcnt = 0) = true := by decide
theorem test_mixF_symmetric_matrix : leaves (exec .mixF { engA with st := vecS })
    (fun t => t.st = [0x7EDD, 0x3A99, 0xF655, 0xB211, 0x8001, 0x7FFE, 0xFFFE, 0x7FFF]) = true := by decide

/-- DF4 (`Bd`, s). -/
theorem test_mixI_vector : leaves (exec .mixI engB)
    (fun t => t.st = [0x4444, 0xCCCC, 0x4444, 0x3210, 0xFFFF, 0x8000, 0x8001, 0x0001]) = true := by decide

/-- RD2 (configuration A, two rounds from zero; the 16 entries of P1 and their like for slot 7). -/
theorem test_runF_two_rounds : leaves (exec (.runF 2) { engA with tbl :=
      [(0, 1), (9, 0xA), (0x10000, 2), (0x1000A, 0xC), (0x20000, 3), (0x2000B, 0xE), (0x30000, 4), (0x3000C, 0x10),
       (0x40000, 5), (0x4000D, 0x12), (0x50000, 6), (0x5000E, 0x14), (0x60000, 7), (0x6000F, 0x16), (0x70000, 8)] })
    (fun t => t.st = [0x000A, 0x000C, 0x000E, 0x0010, 0x0012, 0x0014, 0x0016, 0x0008] ∧ t.rcnt = 2) = true := by decide

/-- RD26 (configuration B): inverse diffusion comes before inverse confusion (conflict C1). -/
theorem test_runI_mixes_first : leaves (exec (.runI 1) { engB with
      st := [0xF7F4, 0xF4B3, 0x7C7F, 0x6C2B, 0xF3F0, 0x090A, 0x0F0C, 0x080A]
      tbl := entries .inverse [0x0347, 0x88CC, 0x1054, 0x9FDB, 0xFAFA, 0x0606, 0x0706, 0x080A] vecS })
    (fun t => t.st = vecS ∧ t.rcnt = 1) = true := by decide

/-- R96, R97. -/
theorem test_nop : leaves (exec .nop { engB with rcnt := 7 })
    (fun t => t.st = vecS ∧ t.rcnt = 7 ∧ t.done = true ∧ t.eng = .idle) = true := by decide
theorem test_clrst : leaves (exec .clrst { engB with rcnt := 7 })
    (fun t => t.st = [0, 0, 0, 0, 0, 0, 0, 0] ∧ t.rcnt = 7 ∧ t.done = true) = true := by decide

/-- G8 (an entry of slot 2) and G15's STATUS word. -/
theorem test_rd_tdata : leaves (exec (.rd 0x05) { engA with
      tbl := [(entryAddr .forward 2 7, 0xBEEF)], tselSlot := 2, tselIndex := 7 })
    (fun t => t.rdata = 0x0000BEEF ∧ t.tselIndex = 8 ∧ t.tselSlot = 2) = true := by decide
theorem test_rd_status : leaves (exec (.rd 0x02) { engA with done := true, err := true, errCode := .badaddr })
    (fun t => t.rdata = 0x00000036 ∧ t.done = true ∧ t.err = true) = true := by decide

/-- G7: the index wraps and does not carry into SLOT. G16: the first error is kept. -/
theorem test_wr_tdata_wraps : leaves (exec (.wr 0x05 0x12345678) { engA with tselBank := .inverse, tselIndex := 0xFFFF })
    (fun t => t.tbl.read (entryAddr .inverse 0 0xFFFF) = some 0x5678 ∧ t.tselIndex = 0 ∧ t.tselSlot = 0) = true := by
  decide
theorem test_wr_keeps_first_error : leaves (exec (.wr 0x18 1) { engA with err := true, errCode := .badcmd })
    (fun t => t.err = true ∧ t.errCode = .badcmd) = true := by decide

/-! ### Steps -/

/-- A step from the reset state with a loaded word runs it: RD ID (G1), and CLRST. -/
theorem test_fetch_transaction : leaves (step (State.reset.withFetchWord 40 0))
    (fun t => t.rdata = 0x53504E31 ∧ t.ack = true) = true := by decide
theorem test_fetch_command : leaves (step (State.reset.withFetchWord 32 4))
    (fun t => t.st = List.replicate 8 0 ∧ t.done = true ∧ t.eng = .idle) = true := by decide

/-- H4: after RUN.F #4 a read of RCNT between the rounds may return 3. -/
theorem test_round_count_is_live : ((running (.runF 4) 0 .first 0).advanceBy 7).rcnt = 3 := by decide

/-- U4, U13. -/
theorem test_no_transaction_before_reset :
    refusesWith (step { engA with resetDone := false, events := [.txn 0] }) .transactionBeforeReset = true ∧
    refusesWith (step { engA with events := [.narrow 1 2] }) .notFullWordAccess = true ∧
    faultsWith (step { engA with resetDone := false, events := [.complete] }) .behaviourBeforeReset = true := by decide

/-- E8 and E9: the interrupt is a level. -/
theorem test_irq_level :
    State.irq { engA with ieDone := true, done := true } = true ∧
    State.irq { engA with ieErr := true, err := true } = true ∧
    State.irq { engA with ieDone := true, err := true } = false := by decide

/-- POLL (R52) reads STATUS again while it finds BUSY = 1, and an Idle engine's POLL is one read. -/
theorem test_poll_repeats : pollEvents [⟨1, false⟩, ⟨0, true⟩, ⟨9, false⟩] (running (.runF 2) 0 .first 0) =
    [.advance, statusRead, .complete, statusRead] ∧ pollEvents [] engA = [statusRead] ∧
    pollEvents [⟨3, false⟩] (running (.runI 2) 0 .first 0) =
      [.advance, .advance, .advance, statusRead, statusRead, .complete, statusRead] := by decide

/-- The printer writes R51's syntax. -/
theorem test_printer : asmText (.runF 12) = "RUN.F #12" ∧ asmText (.rd 0x11) = "RD ST1" ∧
    asmText (.wr 0x04 0xFFF10005) = "WR TSEL, 0xfff10005" := by decide

/-! ### Witnesses: for every statement with hypotheses a state and operands that meet them, clause by clause, at
the ends of their ranges -/

theorem inv_engA : engA.Inv where
  cfgOk := by decide
  stLength := by decide
  mixedLength := by decide
  tblOk := rfl
  tblWithin := rfl
  errOk := by decide
  eng := trivial

/-- The invariant of an engine with a command running. -/
theorem inv_of_run {c : Command} {k : Nat} {p : Phase} {w : Word} (h : c.WellFormed) (hp : progressOk w c k p) :
    (running c k p w).Inv where
  cfgOk := inv_engA.cfgOk
  stLength := inv_engA.stLength
  mixedLength := inv_engA.mixedLength
  tblOk := rfl
  tblWithin := rfl
  errOk := inv_engA.errOk
  eng := ⟨rfl, h, hp⟩

/-- RUN.I #3 in the middle of its last round. -/
theorem inv_midRound : (running (.runI 3) 2 .second 2).Inv := inv_of_run (by decide) (by simp [progressOk])

theorem witness_DecodeOfEncode :
    Instr.WellFormed (.runF 65535) ∧ Instr.WellFormed (.runI 0) ∧ Instr.WellFormed (.wr 0x3F 0xFFFFFFFF) ∧
    Instr.WellFormed (.rd 0x00) ∧ Instr.WellFormed .nop := by decide

theorem witness_IllegalCommandWords :
    decodeCommand 0x00000005 = .error .badcmd ∧ decodeCommand 0x0001000F = .error .badcmd ∧
    decodeCommand 0x00000020 = .error .badcmd ∧ decodeCommand 0xFFFF0002 = .error .badcmd ∧
    decodeCommand 0x00000014 = .error .badcmd ∧ engA.eng = .idle := by decide

theorem witness_EveryTransactionDecodes :
    (0x7FFFFFFFFF#39).toNat = 2 ^ 38 + (0x3F : RegAddr).toNat * 2 ^ 32 + (0xFFFFFFFF : BusWord).toNat ∧
    (0x4000000000#39).toNat = 2 ^ 38 + (0 : RegAddr).toNat * 2 ^ 32 + (0 : BusWord).toNat ∧
    (0x3FFFFFFFFF#39).toNat = (0x3F : RegAddr).toNat * 2 ^ 32 + (0xFFFFFFFF : BusWord).toNat ∧
    Command.WellFormed (.runI 65535) := by decide

theorem witness_IdentificationReads :
    engA.cfg.width = .w8 ∧ (State.resetOf cfg12).cfg.width = .w12 ∧ (State.resetOf cfg16).cfg.width = .w16 := by decide

theorem witness_StatusWrite : ∃ c k p, (running (.runI 65535) 65535 .first 65535).eng = .busy c k p :=
  ⟨_, _, _, rfl⟩

/-- Addresses 0x08, 0x0F, 0x18 and 0x3F on N = 8 are reserved, 0x1C on N = 12; on N = 16 no window address is. -/
theorem witness_ReservedAddresses :
    (0x04 : RegAddr) ≠ 0x05 ∧ 8 ≤ (0x08 : RegAddr).toNat ∧ (0x0F : RegAddr).toNat < 16 ∧
    16 ≤ (0x18 : RegAddr).toNat ∧ engA.n ≤ (0x18 : RegAddr).toNat % 16 ∧ engA.n ≤ (0x3F : RegAddr).toNat % 16 ∧
    (State.resetOf cfg12).n ≤ (0x1C : RegAddr).toNat % 16 ∧ ¬ (State.resetOf cfg16).n ≤ (0x3F : RegAddr).toNat % 16 := by
  decide

/-- Idle and Busy engines, with slots 7 (the last of N = 8), 8 and 15 selected. -/
theorem witness_TableSelectAndData :
    engA.eng = .idle ∧ (running .nop 0 .first 0).eng ≠ .idle ∧
    ({ engA with tselSlot := 7 } : State).tselSlot.toNat < engA.n ∧
    engA.n ≤ ({ engA with tselSlot := 8 } : State).tselSlot.toNat ∧
    engA.n ≤ ({ engA with tselSlot := 15 } : State).tselSlot.toNat := by decide

/-- A written and an unwritten selected entry. -/
theorem witness_TableDataRead_entry :
    Memory.read [(entryAddr .inverse 7 0xFFFF, 0xABCD)] (entryAddr .inverse 7 0xFFFF) = some 0xABCD ∧
    engA.tbl.read (entryAddr .forward 0 0) = none := by decide

/-- Two values for the last entry and, after the wrap, the first entry of the last slot. -/
theorem witness_TableLoad : ({ engA with tselSlot := 7, tselIndex := 0xFFFF } : State).resetDone = true ∧
    engA.eng = .idle ∧ ({ engA with tselSlot := 7, tselIndex := 0xFFFF } : State).tselSlot.toNat < engA.n ∧
    [(1 : BusWord), 2].length ≤ 65536 ∧
    ({ engA with events := [(1 : BusWord), 2].map fun v => .txn (packTransaction true 0x05 v) } : State).events =
      [.txn 0x4500000001, .txn 0x4500000002] := by decide

theorem witness_RoundCountRead :
    (running (.runF 65535) 65535 .first 65535).Inv ∧ (running (.runI 3) 2 .second 2).Inv ∧
    (running (.runF 0) 0 .first 0).Inv :=
  ⟨inv_of_run (by decide) (by simp [progressOk]), inv_midRound, inv_of_run (by decide) (by simp [progressOk])⟩

theorem witness_RoundCountAdmits : (65535 : Nat) ≤ 65535 ∧ (running (.runF 65535) 0 .first 0).rcnt = 0 ∧
    (running (.runF 65535) 0 .first 0).eng = .busy (.runF 65535) 0 .first ∧
    (running (.runI 0) 0 .first 0).eng = .busy (.runI 0) 0 .first := ⟨Nat.le_refl _, rfl, rfl, rfl⟩

/-- The step that completes round 3 of 3. -/
theorem witness_RoundCountNeverFalls : ∃ s t, s.Inv ∧ step s = .next t ∧ s.eng = .busy (.runI 3) 2 .second ∧
    t.eng = .busy (.runI 3) 3 .first :=
  ⟨{ running (.runI 3) 2 .second 2 with events := [.advance] }, _,
    inv_midRound.of_same rfl rfl rfl rfl inv_midRound.errOk inv_midRound.eng, rfl, rfl, rfl⟩

/-- Of StateWordRead, StateWordWrite and MatrixRowReads: the first and the last word of N = 8, the last of N = 16. -/
theorem witness_StateWordAccess : 0 < engA.n ∧ 7 < engA.n ∧ 15 < (State.resetOf cfg16).n ∧ engA.st.length = engA.n ∧
    engA.eng = .idle ∧ (running .subF 0 .first 0).eng ≠ .idle ∧
    (running .subF 0 .first 0).st.length = (running .subF 0 .first 0).n := by decide

theorem witness_RefusedTransaction :
    engA.err = false ∧ leaves (exec (.wr 0x00 1) engA) (fun t => t.err) = true ∧
    leaves (exec (.rd 0x05) { engA with tselSlot := 8 }) (fun t => t.err) = true ∧
    leaves (exec .nop (running .clrst 0 .first 0)) (fun t => t.err) = true ∧
    ({ engA with err := true, errCode := .busy } : State).err = true := by decide

theorem witness_ErrorPriority : (running (.runF 1) 0 .first 0).eng ≠ .idle ∧ (running (.runF 1) 0 .first 0).err = false ∧
    (running (.runF 1) 0 .first 0).n ≤ ({ running (.runF 1) 0 .first 0 with tselSlot := 9 } : State).tselSlot.toNat ∧
    16 ≤ (0x18 : RegAddr).toNat ∧ (running (.runF 1) 0 .first 0).n ≤ (0x18 : RegAddr).toNat % 16 := by decide

/-- Also of IssuedCommandCompletesAsTheCommand: an Idle engine and a well-formed command. -/
theorem witness_InterruptLevel : Command.WellFormed (.runF 65535) ∧ engA.eng = .idle ∧ engA.err = false ∧
    ({ running .nop 0 .first 0 with ieDone := true } : State).eng = .busy .nop 0 .first ∧
    ({ running .nop 0 .first 0 with ieDone := true } : State).ieDone = true := by decide

/-- A state word, both slot clauses: slot 0 and slot 7 exist. -/
theorem witness_BusyEngineRefuses : (running .mixF 0 .first 0).eng ≠ .idle ∧ 7 < (running .mixF 0 .first 0).n ∧
    (running .mixF 0 .first 0).tselSlot.toNat < (running .mixF 0 .first 0).n := by decide

/-- Addresses 0x0F, 0x18 and 0x20 lie outside the state words of N = 8, and none is STATUS, CMD, TSEL or TDATA. -/
theorem witness_OtherAccesses : ∀ a ∈ [(0x0F : RegAddr), 0x18, 0x20], a ≠ 0x02 ∧ a ≠ 0x03 ∧ a ≠ 0x04 ∧ a ≠ 0x05 ∧
    ¬ (16 ≤ a.toNat ∧ a.toNat < 16 + engA.n) := by decide

theorem witness_CommandAcceptance : (running .nop 0 .first 0).eng ≠ .idle ∧ engA.eng = .idle ∧
    decodeCommand 0x0000000F = .error .badcmd ∧ decodeCommand 0xFFFF0001 = .ok (.runF 65535) ∧
    decodeCommand 0x00000011 = .ok (.runI 0) ∧ decodeCommand 0x00000002 = .ok .subF := by decide

/-- Also of ProgressDoesNotChangeTheResult: a command in the middle of a round. -/
theorem witness_RunningCommandCompletes :
    (running (.runI 3) 2 .second 2).eng = .busy (.runI 3) 2 .second ∧ (running (.runI 3) 2 .second 2).Inv ∧
    (running .subI 0 .first 9).Inv :=
  ⟨rfl, inv_midRound, inv_of_run (by decide) (by simp [progressOk])⟩

theorem witness_CommandWhileAnotherRuns : (running (.runF 2) 1 .second 1).eng = .busy (.runF 2) 1 .second ∧
    Command.runF 2 ≠ .runF 1 ∧ Command.runF 2 ≠ .nop := by decide

/-- Of the statements whose hypothesis is an Idle engine (SUB, MIX, RUN of no rounds, layers and rounds), and of NOP
and CLRST with their Busy clauses. -/
theorem witness_Idle : engA.eng = .idle ∧ engB.eng = .idle ∧ (running .nop 0 .first 0).eng = .busy .nop 0 .first ∧
    (running .clrst 0 .first 0).eng ≠ .idle := by decide

/-- A lookup the statement on SUB speaks of, at the last index of the last slot. -/
theorem witness_SubLooksUp : wordAt [0, 0, 0, 0, 0, 0, 0, 0xFFFF] 7 = 0xFFFF ∧ 7 < engA.n ∧
    Memory.read [(entryAddr .forward 7 0xFFFF, 3)] (entryAddr .forward 7 0xFFFF) = some 3 := by decide

/-- Also of RunForwardIsTheRoundIterated and RunInverseIsTheRoundIterated: the ends of the range of R. -/
theorem witness_RoundsCompose : 65535 + 0 ≤ 65535 ∧ 5 + 7 ≤ 65535 ∧ (0 : Nat) ≤ 65535 ∧ engA.eng = .idle := by decide

/-- Tables that list, at every entry of N = 8, the entry's own index. -/
@[irreducible] def identityTables : Memory := (List.range (2 * 16 * 65536)).map fun a => (a, BitVec.ofNat 16 a)

theorem identityTables_read (b : Dir) {j : Nat} (x : Word) (hj : j < 16) :
    identityTables.read (entryAddr b j x) = some x := by
  have h : entryAddr b j x < 2 * 16 * 65536 := entryAddr_lt b x hj
  unfold identityTables
  generalize 2 * 16 * 65536 = m at h
  rw [Memory.read_map _ (BitVec.ofNat 16), if_pos (List.mem_range.2 h)]
  congr 1
  apply BitVec.eq_of_toNat_eq
  have := x.isLt
  rw [BitVec.toNat_ofNat, entryAddr]
  omega

theorem witness_InverseTables (b b' : Dir) : ([0, 1] : List Word).length = 2 ∧
    ∀ j, j < 2 → ∀ w, ∃ y, identityTables.read (entryAddr b j w) = some y ∧
      identityTables.read (entryAddr b' j y) = some w :=
  ⟨rfl, fun _ hj w => ⟨w, identityTables_read b w (by omega), identityTables_read b' w (by omega)⟩⟩

/-- The product of J + I with itself is the identity, of U and Bd as well (section 2). -/
theorem witness_InverseMatrices :
    (∀ j, j < 8 → ∀ i, i < 8 → (bitSum 8 fun k => matEntry matJI j k && matEntry matJI k i) = decide (j = i)) ∧
    (∀ j, j < 8 → ∀ i, i < 8 → (bitSum 8 fun k => matEntry matBd j k && matEntry matU k i) = decide (j = i)) := by
  decide

/-- Vectors of 8 words, a product (Bd · U = I) and the identity matrix for the three clauses on linearity. -/
theorem witness_DiffusionIsLinear :
    vecS.length = 8 ∧ (List.replicate 8 (1 : Word)).length = 8 ∧
    (∀ j, j < 8 → ∀ i, i < 8 →
      matEntry [1, 2, 4, 8, 16, 32, 64, 128] j i = bitSum 8 fun k => matEntry matBd j k && matEntry matU k i) ∧
    (∀ j, j < 8 → ∀ i, i < 8 → matEntry [1, 2, 4, 8, 16, 32, 64, 128] j i = decide (j = i)) := by decide

/-- The zero matrix has no inverse; it has a zero row and a zero column. -/
theorem witness_SingularMatrix :
    (¬ ∃ g : List Word, ∀ j, j < 8 → ∀ i, i < 8 →
      (bitSum 8 fun k => matEntry g j k && matEntry (List.replicate 8 0) k i) = decide (j = i)) ∧
    (∀ i, i < 8 → matEntry (List.replicate 8 0) 7 i = false) ∧
    (∀ j, j < 8 → matEntry (List.replicate 8 0) j 0 = false) := by
  have zero : ∀ j i, matEntry (List.replicate 8 0) j i = false := fun j i => by rw [matEntry, wordAt_replicate]; exact BitVec.getLsbD_zero
  refine ⟨fun ⟨g, h⟩ => ?_, fun i _ => zero 7 i, fun j _ => zero j 0⟩
  have := h 0 (by decide) 0 (by decide)
  rw [bitSum_congr (q := fun _ => false) fun k _ => by rw [zero, Bool.and_false]] at this
  exact absurd this (by decide)

/-- Both table clauses of DecryptionUndoesEncryption: identity tables and J + I. -/
theorem witness_DecryptionUndoesEncryption (b b' : Dir) : ∃ s : State, 65535 ≤ 65535 ∧ s.eng = .idle ∧
    s.st.length = s.n ∧
    (∀ j, j < s.n → ∀ w, ∃ y, s.tbl.read (entryAddr b j w) = some y ∧ s.tbl.read (entryAddr b' j y) = some w) ∧
    (∀ j, j < s.n → ∀ i, i < s.n →
      (bitSum s.n fun k => matEntry s.cfg.matI j k && matEntry s.cfg.matF k i) = decide (j = i)) :=
  ⟨{ engA with tbl := identityTables }, Nat.le_refl _, rfl, rfl,
    fun _ hj w => ⟨w, identityTables_read b w (Nat.lt_of_lt_of_le hj (by decide)),
      identityTables_read b' w (Nat.lt_of_lt_of_le hj (by decide))⟩,
    witness_InverseMatrices.1⟩

theorem witness_InvariantAtReset : cfgA.wf = true ∧ cfg12.wf = true ∧ cfg16.wf = true := by decide

/-- Also of BuildParametersAreConstant. The invariant and a step from a state with it: an idle engine, and one in the middle of a round. -/
theorem witness_StepKeepsTheInvariant : ∃ s t u v, engA.Inv ∧ step engA = .next s ∧
    t = running (.runI 3) 2 .second 2 ∧ t.Inv ∧ step t = .next u ∧ u.eng = .idle ∧ v = s.cfg ∧ v = cfgA :=
  ⟨_, _, _, _, inv_engA, rfl, rfl, inv_midRound, rfl, rfl, rfl, rfl⟩

theorem witness_ResetEdge : ({ running (.runF 9) 4 .second 4 with events := [.reset] } : State).events = [.reset] ∧
    ({ engA with resetDone := false, events := [.reset] } : State).events = .reset :: [] := by decide

theorem witness_BeforeReset : ({ engA with resetDone := false } : State).resetDone = false ∧
    engA.powerUp.resetDone = false := by decide

theorem witness_StepRuns : engA.resetDone = true ∧ engA.events = [] ∧
    ({ engA with events := [.txn 0x4300000004] } : State).events = .txn 0x4300000004 :: [] ∧
    ({ running .mixI 0 .first 0 with events := [.complete] } : State).events = .complete :: [] ∧
    (running .mixI 0 .first 0).eng = .busy .mixI 0 .first ∧
    decodeCommand (BitVec.ofNat 32 0xFFFF0011) = .ok (.runI 65535) := by decide

theorem witness_EveryCommandCompletes :
    ({ running (.runF 2) 0 .first 0 with events := [.txn 0, .advance] } : State).resetDone = true ∧
    ({ running (.runF 2) 0 .first 0 with events := [.txn 0, .advance] } : State).isBusy = true ∧
    (∀ e, e ∈ [Event.txn 0, .advance] → isOrdinary e = true) := by decide

theorem witness_OrdinaryRuns : engA.resetDone = true ∧ (∀ e, e ∈ [Event.txn 0, .complete] → isOrdinary e = true) ∧
    ({ engA with events := [.txn 0x7FFFFFFFFF, .complete] } : State).events = .txn 0x7FFFFFFFFF :: [.complete] := by
  decide

/-- A write of the last entry of the last slot of bank 1 changes what is read there. -/
theorem witness_OnlyTableDataWrites : leaves
    (exec (.wr 0x05 5) { engA with tselBank := .inverse, tselSlot := 7, tselIndex := 0xFFFF }) (fun t =>
      decide (t.tbl.read (entryAddr .inverse 7 0xFFFF) ≠ engA.tbl.read (entryAddr .inverse 7 0xFFFF))) = true := by
  decide

theorem witness_BusyEngineIsOutOfReach : (running .subF 0 .first 0).eng ≠ .idle ∧
    leaves (exec (.rd 0x10) (running .subF 0 .first 0)) (fun t => t.ack) = true ∧
    leaves (exec (.wr 0x02 6) (running .subF 0 .first 0)) (fun t => t.ack) = true := by decide

/-- An idle engine, and one at the start of a round: neither is between the halves of one. -/
theorem witness_MixedIsUnobservable :
    (∀ c j, engA.eng ≠ .busy c j .second) ∧ ∀ c j, (running (.runF 2) 1 .first 1).eng ≠ .busy c j .second :=
  ⟨fun _ _ => Eng.noConfusion, fun _ _ h => by injection h with _ _ h; cases h⟩

theorem witness_BothOrdersOfCompletion : engA.resetDone = true ∧ engA.eng = .idle ∧ engA.err = false := by decide

end Sys2Proof.Tests
end

