-- ==== Sys2Proof/Proofs/ResetInvariant.lean ====
section
/-! PROOFS. The reset state has the invariant, for every legal build and for the build of `State.reset`. -/

namespace Sys2Proof

/-- Masking a word to its low byte keeps it below the bound R6 gives the matrix rows of width 8. -/
theorem toNat_and_lowByte_lt (w : Word) : (w &&& 0x00FF).toNat < 2 ^ 8 := by
  rw [BitVec.toNat_and]
  exact Nat.and_lt_two_pow _ (by decide)

/-- The ranges of R6 as propositions about the build parameters. -/
theorem Config.wf_iff {c : Config} : c.wf = true ↔
    c.matF.length = c.n ∧ c.matI.length = c.n ∧ (∀ r ∈ c.matF, r.toNat < 2 ^ c.n) ∧
      (∀ r ∈ c.matI, r.toNat < 2 ^ c.n) ∧ 1 ≤ c.latSub ∧ 1 ≤ c.latMix := by
  simp [Config.wf, and_assoc]

/-- The engine of `State.reset` is a legal build, whatever its free matrix rows and latencies are. -/
theorem Config.wf_built : Config.built.wf = true := by
  have rows (b : Dir) : ∀ r ∈ (List.range 8).map fun j => Config.freeRow b j &&& 0x00FF, r.toNat < 2 ^ 8 :=
    List.forall_mem_map.2 fun _ _ => toNat_and_lowByte_lt _
  exact Config.wf_iff.2 ⟨by simp [Config.built, Config.n], by simp [Config.built, Config.n],
    rows .forward, rows .inverse, Nat.le_add_left .., Nat.le_add_left ..⟩

end Sys2Proof

namespace Sys2Proof.Machine

/-- The reset state of a legal build has the invariant: empty tables, no error and an Idle engine (R114). -/
theorem State.Inv.resetOf {c : Config} (hc : c.wf = true) : (State.resetOf c).Inv where
  cfgOk := hc
  stLength := List.length_replicate
  mixedLength := List.length_replicate
  tblOk := rfl
  tblWithin := rfl
  errOk := iff_of_true rfl rfl
  eng := engOk_of_idle rfl

/-- Settles O49: a reset state has the invariant field by field, and the build behind `State.reset` is legal. -/
theorem invariantAtReset : Obligations.InvariantAtReset :=
  ⟨fun _ => State.Inv.resetOf, State.Inv.resetOf Config.wf_built⟩

end Sys2Proof.Machine
end

