-- ==== Sys2Proof/Proofs/StepInvariant.lean ====
section
/-! PROOFS. Every step keeps the invariant: the register port keeps it write by write and read by read, the
engine's own steps keep it by Laws/Invariant.lean. -/

namespace Sys2Proof

/-- What CMD accepts is well-formed: the round count is the 16-bit field IMM (R47). -/
theorem decodeCommand_wellFormed {v : BusWord} {c : Command} (h : decodeCommand v = .ok c) : c.WellFormed := by
  have count : (cmdImm v).toNat ≤ 65535 := Nat.le_of_lt_succ (cmdImm v).isLt
  unfold decodeCommand at h
  split at h
  · cases h
  · split at h
    · split at h <;> cases h <;> exact decide_eq_true count
    · repeat' split at h
      all_goals cases h
      all_goals rfl

/-- A transaction is a read or a write, never a bare command (R45). -/
theorem decodeTransaction_cases (w : Transaction) :
    (∃ a, decodeTransaction w = .rd a) ∨ ∃ a v, decodeTransaction w = .wr a v := by
  unfold decodeTransaction
  split
  · exact .inr ⟨_, _, rfl⟩
  · exact .inl ⟨_, rfl⟩

end Sys2Proof

namespace Sys2Proof.Machine

/-! ### Writes -/

theorem State.Inv.writeCtrl {s : State} (hi : s.Inv) (v : BusWord) : (s.writeCtrl v).Inv :=
  hi.of_same rfl rfl rfl rfl hi.errOk hi.eng

theorem State.Inv.writeStatus {s : State} (hi : s.Inv) (v : BusWord) : (s.writeStatus v).Inv :=
  (hi.ackDone _).ackErr _

theorem State.Inv.writeCmd {s : State} (hi : s.Inv) (v : BusWord) : (s.writeCmd v).Inv := by
  unfold State.writeCmd
  split
  · exact hi.raise (by decide)
  · split
    · exact hi.raise (by decide)
    · next hc => exact hi.accept (decodeCommand_wellFormed hc)

theorem State.Inv.writeTsel {s : State} (hi : s.Inv) (v : BusWord) : (s.writeTsel v).Inv := by
  unfold State.writeTsel
  split
  · exact hi.raise (by decide)
  · exact hi.of_same rfl rfl rfl rfl hi.errOk hi.eng

/-- The entry written lies in a slot that exists: a TSEL that selects none is refused (R65). -/
theorem State.Inv.writeTdata {s : State} (hi : s.Inv) (v : BusWord) : (s.writeTdata v).Inv := by
  unfold State.writeTdata
  split
  · exact hi.raise (by decide)
  · next hslot =>
    have slotExists : s.tselSlot.toNat < s.n := by simpa [badSlot] using hslot
    split
    · exact hi.raise (by decide)
    · exact
        { cfgOk := hi.cfgOk
          stLength := hi.stLength
          mixedLength := hi.mixedLength
          tblOk := Memory.wf_write _ _ hi.tblOk
          tblWithin := Memory.within_write _ _ _ slotExists s.tselSlot.isLt hi.tblWithin
          errOk := hi.errOk
          eng := hi.eng }

theorem State.Inv.writeSt {s : State} (hi : s.Inv) (j : Nat) (v : BusWord) : (s.writeSt j v).Inv := by
  unfold State.writeSt
  split
  · exact hi.raise (by decide)
  · exact hi.of_same rfl List.length_set rfl rfl hi.errOk hi.eng

theorem execWr_keeps_inv {a : RegAddr} {v : BusWord} {s t : State} (hi : s.Inv) (h : execWr a v s = .next t) :
    t.Inv := by
  unfold execWr at h
  generalize regAt s.n a = r at h
  cases r <;> cases h
  case ctrl => exact (hi.writeCtrl v).acked
  case status => exact (hi.writeStatus v).acked
  case cmd => exact (hi.writeCmd v).acked
  case tsel => exact (hi.writeTsel v).acked
  case tdata => exact (hi.writeTdata v).acked
  case st j => exact (hi.writeSt j v).acked
  all_goals exact (hi.raise (by decide)).acked

/-! ### Reads -/

theorem State.Inv.readTdata {s : State} (hi : s.Inv) : s.readTdata.Inv := by
  unfold State.readTdata
  split
  · exact (hi.raise (by decide)).answer _
  · split
    · exact (hi.raise (by decide)).answer _
    · exact hi.of_same rfl rfl rfl rfl hi.errOk hi.eng

theorem State.Inv.readSt {s : State} (hi : s.Inv) (j : Nat) : (s.readSt j).Inv := by
  unfold State.readSt
  split
  · exact hi.of_same rfl rfl rfl rfl hi.errOk hi.eng
  · exact hi.answer _

theorem execRd_keeps_inv {a : RegAddr} {s t : State} (hi : s.Inv) (h : execRd a s = .next t) : t.Inv := by
  unfold execRd at h
  generalize regAt s.n a = r at h
  cases r <;> cases h
  case tdata => exact hi.readTdata
  case st j => exact hi.readSt j
  all_goals exact hi.answer _

/-! ### Steps -/

theorem transaction_keeps_inv {w : Transaction} {s t : State} (hi : s.Inv)
    (h : exec (decodeTransaction w) s = .next t) : t.Inv := by
  rcases decodeTransaction_cases w with ⟨a, e⟩ | ⟨a, v, e⟩ <;> rw [e] at h
  · exact execRd_keeps_inv hi h
  · exact execWr_keeps_inv hi h

theorem engineCompletes_keeps_inv {s t : State} (hi : s.Inv) (h : engineCompletes s = .next t) : t.Inv := by
  rcases engineCompletes_cases h with ⟨_, rfl⟩ | ⟨c, _, _, _, rfl⟩
  · exact hi
  · exact hi.completed c

theorem onEvent_keeps_inv {e : Event} {s t : State} (hi : s.Inv) (h : onEvent e s = .next t) : t.Inv := by
  rcases onEvent_cases h with ⟨_, rfl⟩ | ⟨_, rfl⟩ | ⟨w, _, hw⟩ | ⟨_, rfl⟩ | ⟨_, hc⟩
  · exact hi.powerUp
  · exact hi.resetEdge
  · exact transaction_keeps_inv hi hw
  · exact hi.advance
  · exact engineCompletes_keeps_inv hi hc

/-- Settles O50: the event of the step, before or after the first reset, keeps the invariant, and so does the
completion that comes when no event is left. -/
theorem stepKeepsTheInvariant : Obligations.StepKeepsTheInvariant := by
  intro s t hi h
  rcases step_cases h with ⟨e, rest, _, ⟨_, he⟩ | ⟨_, rfl⟩ | ⟨_, rfl⟩⟩ | ⟨_, _, hc⟩
  · exact onEvent_keeps_inv (hi.popEvent rest) he
  · exact (hi.popEvent rest).powerUp
  · exact (hi.popEvent rest).resetEdge
  · exact engineCompletes_keeps_inv (hi.popEvent []) hc

end Sys2Proof.Machine
end

