-- ==== Sys2Proof/Proofs/BuildParameters.lean ====
section
/-! PROOFS. No step changes the build parameters (R12, R30). -/

namespace Sys2Proof.Machine

theorem engineCompletes_cfg {s t : State} (h : engineCompletes s = .next t) : t.cfg = s.cfg := by
  rcases engineCompletes_cases h with ⟨_, rfl⟩ | ⟨c, _, _, _, rfl⟩
  · rfl
  · exact (effectOf_frame c s).1

theorem onEvent_cfg {e : Event} {s t : State} (h : onEvent e s = .next t) : t.cfg = s.cfg := by
  rcases onEvent_cases h with ⟨_, rfl⟩ | ⟨_, rfl⟩ | ⟨w, _, hw⟩ | ⟨_, rfl⟩ | ⟨_, hc⟩
  · rfl
  · rfl
  · exact (exec_outside hw).1
  · exact s.advance_frame.1
  · exact engineCompletes_cfg hc

/-- Settles O56: each kind of step leaves the field alone. -/
theorem buildParametersAreConstant : Obligations.BuildParametersAreConstant := by
  intro s t h
  rcases step_cases h with ⟨e, rest, _, ⟨_, he⟩ | ⟨_, rfl⟩ | ⟨_, rfl⟩⟩ | ⟨_, _, hc⟩
  · exact (onEvent_cfg he).trans (s.popEvent_cfg rest)
  · rfl
  · rfl
  · exact (engineCompletes_cfg hc).trans (s.popEvent_cfg [])

end Sys2Proof.Machine
end

