-- ==== Sys2Proof/Proofs/MixedBuffer.lean ====
section
/-! PROOFS. MIXED is read only by the second half of a round, and the first half overwrites it (R90, R91). So two
states that differ in it between rounds stay twins: each step leaves them equal, or apart in MIXED alone and again
between rounds. -/

namespace Sys2Proof.Machine

/-- The same state with other words in MIXED. -/
def State.setMixed (m : List Word) (s : State) : State := { s with mixed := m }

/-- The engine is not between the two halves of a round (R24). -/
def State.BetweenRounds (s : State) : Prop := ∀ c k, s.eng ≠ .busy c k .second

/-- Two states that are equal, or differ in MIXED alone and are between rounds. -/
def MixedTwins (s u : State) : Prop := u = s ∨ s.BetweenRounds ∧ ∃ m, u = s.setMixed m

/-- Both go on, to twins, or both stop for the same reason. -/
inductive TwinOutcomes : (o o' : Host.Outcome State Fault Refusal) → Prop where
  | next {s u : State} (h : MixedTwins s u) : TwinOutcomes (.next s) (.next u)
  | fault (f : Fault) : TwinOutcomes (.fault f) (.fault f)
  | refused (r : Refusal) : TwinOutcomes (.refused r) (.refused r)

/-! ### Between rounds -/

theorem State.BetweenRounds.of_eng {s t : State} (hb : s.BetweenRounds) (h : t.eng = s.eng) : t.BetweenRounds :=
  fun c k => h ▸ hb c k

theorem State.BetweenRounds.of_idle {s : State} (h : s.eng = .idle) : s.BetweenRounds := by
  simp [State.BetweenRounds, h]

theorem State.BetweenRounds.of_first {s : State} {c : Command} {k : Nat} (h : s.eng = .busy c k .first) :
    s.BetweenRounds := by
  simp [State.BetweenRounds, h]

/-- Between rounds, the half-round that comes next is a first half. -/
theorem State.BetweenRounds.phase {s : State} (hb : s.BetweenRounds) {c : Command} {k : Nat} {p : Phase}
    (h : s.eng = .busy c k p) : p = .first := by
  cases p with
  | first => rfl
  | second => exact absurd h (hb c k)

/-! ### Twins -/

theorem MixedTwins.refl (s : State) : MixedTwins s s := .inl rfl

theorem MixedTwins.setMixed {s : State} (hb : s.BetweenRounds) (m : List Word) : MixedTwins s (s.setMixed m) :=
  .inr ⟨hb, m, rfl⟩

theorem MixedTwins.eng_eq {s u : State} (h : MixedTwins s u) : u.eng = s.eng := by
  rcases h with rfl | ⟨_, m, rfl⟩ <;> rfl

/-- An update that commutes with a change of MIXED and enters no round makes twins of twins. -/
theorem MixedTwins.map {f : State → State} {s u : State} (h : MixedTwins s u)
    (hb : s.BetweenRounds → (f s).BetweenRounds) (hf : ∀ m, f (s.setMixed m) = (f s).setMixed m) :
    MixedTwins (f s) (f u) := by
  rcases h with rfl | ⟨hs, m, rfl⟩
  · exact .refl _
  · exact .inr ⟨hb hs, m, hf m⟩

theorem MixedTwins.withoutMixed_eq {s u : State} (h : MixedTwins s u) : s.withoutMixed = u.withoutMixed := by
  rcases h with rfl | ⟨_, m, rfl⟩ <;> rfl

theorem TwinOutcomes.refl : (o : Host.Outcome State Fault Refusal) → TwinOutcomes o o
  | .next s => .next (.refl s)
  | .fault f => .fault f
  | .refused r => .refused r

/-! ### The register port does not see MIXED -/

theorem State.readTdata_setMixed (m : List Word) (s : State) :
    (s.setMixed m).readTdata = s.readTdata.setMixed m := by
  simp only [State.readTdata, apply_ite (State.setMixed m)]
  rfl

theorem State.readSt_setMixed (m : List Word) (j : Nat) (s : State) :
    (s.setMixed m).readSt j = (s.readSt j).setMixed m := by
  simp only [State.readSt, apply_ite (State.setMixed m)]
  rfl

theorem State.writeCmd_setMixed (m : List Word) (v : BusWord) (s : State) :
    (s.setMixed m).writeCmd v = (s.writeCmd v).setMixed m := by
  simp only [State.writeCmd, apply_ite (State.setMixed m)]
  cases decodeCommand v <;> rfl

theorem State.writeTsel_setMixed (m : List Word) (v : BusWord) (s : State) :
    (s.setMixed m).writeTsel v = (s.writeTsel v).setMixed m := by
  simp only [State.writeTsel, apply_ite (State.setMixed m)]
  rfl

theorem State.writeTdata_setMixed (m : List Word) (v : BusWord) (s : State) :
    (s.setMixed m).writeTdata v = (s.writeTdata v).setMixed m := by
  simp only [State.writeTdata, apply_ite (State.setMixed m)]
  rfl

theorem State.writeSt_setMixed (m : List Word) (j : Nat) (v : BusWord) (s : State) :
    (s.setMixed m).writeSt j v = (s.writeSt j v).setMixed m := by
  simp only [State.writeSt, apply_ite (State.setMixed m)]
  rfl

theorem execRd_setMixed {a : RegAddr} {s t : State} (m : List Word) (h : execRd a s = .next t) :
    execRd a (s.setMixed m) = .next (t.setMixed m) := by
  have hn : (s.setMixed m).n = s.n := rfl
  unfold execRd at h ⊢
  rw [hn]
  generalize regAt s.n a = r at h ⊢
  cases r <;> cases h
  case tdata => exact congrArg Host.Outcome.next (s.readTdata_setMixed m)
  case st j => exact congrArg Host.Outcome.next (s.readSt_setMixed m j)
  all_goals rfl

theorem execWr_setMixed {a : RegAddr} {v : BusWord} {s t : State} (m : List Word) (h : execWr a v s = .next t) :
    execWr a v (s.setMixed m) = .next (t.setMixed m) := by
  have acked {u w : State} (e : u = w.setMixed m) :
      (Host.Outcome.next u.acked : Host.Outcome State Fault Refusal) = .next (w.acked.setMixed m) := e ▸ rfl
  have hn : (s.setMixed m).n = s.n := rfl
  unfold execWr at h ⊢
  rw [hn]
  generalize regAt s.n a = r at h ⊢
  cases r <;> cases h
  case cmd => exact acked (s.writeCmd_setMixed m v)
  case tsel => exact acked (s.writeTsel_setMixed m v)
  case tdata => exact acked (s.writeTdata_setMixed m v)
  case st j => exact acked (s.writeSt_setMixed m j v)
  all_goals rfl

/-! ### The register port starts no second half -/

@[simp] theorem State.readTdata_eng (s : State) : s.readTdata.eng = s.eng := by
  simp [State.readTdata, apply_ite State.eng]

@[simp] theorem State.readSt_eng (j : Nat) (s : State) : (s.readSt j).eng = s.eng := by
  simp [State.readSt, apply_ite State.eng]

@[simp] theorem State.writeTsel_eng (v : BusWord) (s : State) : (s.writeTsel v).eng = s.eng := by
  simp [State.writeTsel, apply_ite State.eng]

@[simp] theorem State.writeTdata_eng (v : BusWord) (s : State) : (s.writeTdata v).eng = s.eng := by
  simp [State.writeTdata, apply_ite State.eng]

@[simp] theorem State.writeSt_eng (j : Nat) (v : BusWord) (s : State) : (s.writeSt j v).eng = s.eng := by
  simp [State.writeSt, apply_ite State.eng]

/-- A CMD write is refused or accepts a command (R86). -/
theorem State.writeCmd_eng (v : BusWord) (s : State) :
    (s.writeCmd v).eng = s.eng ∨ ∃ c, (s.writeCmd v).eng = .busy c 0 .first := by
  unfold State.writeCmd
  split
  · exact .inl rfl
  · split
    · exact .inl rfl
    · next c _ => exact .inr ⟨c, rfl⟩

theorem execRd_eng {a : RegAddr} {s t : State} (h : execRd a s = .next t) : t.eng = s.eng := by
  unfold execRd at h
  generalize regAt s.n a = r at h
  cases r <;> cases h <;> simp

theorem execWr_eng {a : RegAddr} {v : BusWord} {s t : State} (h : execWr a v s = .next t) :
    t.eng = s.eng ∨ ∃ c, t.eng = .busy c 0 .first := by
  unfold execWr at h
  generalize regAt s.n a = r at h
  cases r <;> cases h
  case cmd => exact s.writeCmd_eng v
  all_goals exact .inl (by simp [State.writeStatus])

/-! ### Twins stay twins -/

theorem transaction_twins {s u : State} (w : Transaction) (h : MixedTwins s u) :
    TwinOutcomes (exec (decodeTransaction w) s) (exec (decodeTransaction w) u) := by
  rcases h with rfl | ⟨hb, m, rfl⟩
  · exact .refl _
  rcases decodeTransaction_cases w with ⟨a, e⟩ | ⟨a, v, e⟩ <;> rw [e]
  · obtain ⟨t, ht⟩ := execRd_next a s
    show TwinOutcomes (execRd a s) (execRd a (s.setMixed m))
    rw [ht, execRd_setMixed m ht]
    exact .next (.setMixed (hb.of_eng (execRd_eng ht)) m)
  · obtain ⟨t, ht⟩ := execWr_next a v s
    have between : t.BetweenRounds := by
      rcases execWr_eng ht with e | ⟨c, e⟩
      · exact hb.of_eng e
      · exact .of_first e
    show TwinOutcomes (execWr a v s) (execWr a v (s.setMixed m))
    rw [ht, execWr_setMixed m ht]
    exact .next (.setMixed between m)

/-- Between rounds, progress overwrites MIXED or is none. -/
theorem State.advance_setMixed {s : State} (hb : s.BetweenRounds) (m : List Word) :
    (s.setMixed m).advance = s.advance ∨ (s.advance = s ∧ (s.setMixed m).advance = s.setMixed m) := by
  have heng : (s.setMixed m).eng = s.eng := rfl
  unfold State.advance
  rw [heng]
  split
  · next r k p e =>
    cases hb.phase e
    split
    exacts [.inl rfl, .inr ⟨rfl, rfl⟩]
  · next r k p e =>
    cases hb.phase e
    split
    exacts [.inl rfl, .inr ⟨rfl, rfl⟩]
  · exact .inr ⟨rfl, rfl⟩

theorem MixedTwins.advance {s u : State} (h : MixedTwins s u) : MixedTwins s.advance u.advance := by
  rcases h with rfl | ⟨hb, m, rfl⟩
  · exact .refl _
  · rcases State.advance_setMixed hb m with e | ⟨es, eu⟩
    · exact .inl e
    · rw [es, eu]
      exact .setMixed hb m

theorem MixedTwins.advanceBy {s u : State} (h : MixedTwins s u) (k : Nat) :
    MixedTwins (s.advanceBy k) (u.advanceBy k) := by
  induction k generalizing s u with
  | zero => exact h
  | succ k ih => exact ih h.advance

theorem MixedTwins.allRounds {s u : State} (h : MixedTwins s u) : MixedTwins s.allRounds u.allRounds := by
  have left : u.halvesLeft = s.halvesLeft := by simp only [State.halvesLeft, h.eng_eq]
  unfold State.allRounds
  rw [left]
  exact h.advanceBy _

theorem MixedTwins.effectOf {s u : State} (h : MixedTwins s u) (c : Command) :
    MixedTwins (effectOf c s) (effectOf c u) := by
  cases c with
  | runF r => exact h.allRounds
  | runI r => exact h.allRounds
  | nop => exact h
  | subF => exact h.map id fun _ => rfl
  | subI => exact h.map id fun _ => rfl
  | mixF => exact h.map id fun _ => rfl
  | mixI => exact h.map id fun _ => rfl
  | clrst => exact h.map id fun _ => rfl

theorem MixedTwins.popEvent {s u : State} (h : MixedTwins s u) (l : List Event) :
    MixedTwins (s.popEvent l) (u.popEvent l) :=
  h.map id fun _ => rfl

theorem MixedTwins.powerUp {s u : State} (h : MixedTwins s u) : MixedTwins s.powerUp u.powerUp :=
  h.map id fun _ => rfl

/-- The reset edge gives MIXED its reset value (R114; log entry 1). -/
theorem MixedTwins.resetEdge {s u : State} (h : MixedTwins s u) : MixedTwins s.resetEdge u.resetEdge := by
  rcases h with rfl | ⟨_, m, rfl⟩ <;> exact .refl _

theorem MixedTwins.finish {s u : State} (h : MixedTwins s u) : MixedTwins s.finish u.finish :=
  h.map (fun _ => .of_idle rfl) fun _ => rfl

theorem engineCompletes_twins {s u : State} (h : MixedTwins s u) :
    TwinOutcomes (engineCompletes s) (engineCompletes u) := by
  simp only [engineCompletes, h.eng_eq]
  cases hs : s.eng with
  | idle => exact .next h
  | busy c k p =>
    show TwinOutcomes (exec c.toInstr s) (exec c.toInstr u)
    rw [exec_running hs, exec_running (h.eng_eq.trans hs)]
    exact .next (h.effectOf c).finish

theorem onEvent_twins {s u : State} (h : MixedTwins s u) (e : Event) :
    TwinOutcomes (onEvent e s) (onEvent e u) := by
  cases e with
  | powerUp => exact .next h.powerUp
  | reset => exact .next h.resetEdge
  | txn w => exact transaction_twins w h
  | narrow o n => exact .refused _
  | advance => exact .next h.advance
  | complete => exact engineCompletes_twins h

theorem onEventBeforeReset_twins {s u : State} (h : MixedTwins s u) (e : Event) :
    TwinOutcomes (onEventBeforeReset e s) (onEventBeforeReset e u) := by
  cases e with
  | powerUp => exact .next h.powerUp
  | reset => exact .next h.resetEdge
  | txn w => exact .refused _
  | narrow o n => exact .refused _
  | advance => exact .fault _
  | complete => exact .fault _

theorem step_twins {s u : State} (h : MixedTwins s u) : TwinOutcomes (step s) (step u) := by
  have hevents : u.events = s.events := by rcases h with rfl | ⟨_, m, rfl⟩ <;> rfl
  have hreset : u.resetDone = s.resetDone := by rcases h with rfl | ⟨_, m, rfl⟩ <;> rfl
  unfold step
  rw [hevents, hreset]
  split
  · exact onEvent_twins (h.popEvent _) _
  · exact onEventBeforeReset_twins (h.popEvent _) _
  · exact engineCompletes_twins (h.popEvent [])
  · exact .fault _

theorem run_twins (k : Nat) {s u : State} (h : MixedTwins s u) :
    TwinOutcomes (Sys2Proof.core.run k s) (Sys2Proof.core.run k u) := by
  induction k generalizing s u with
  | zero => exact .next h
  | succ k ih =>
    have hstep : TwinOutcomes (Sys2Proof.core.step s) (Sys2Proof.core.step u) := step_twins h
    simp only [Host.Core.run]
    generalize Sys2Proof.core.step s = o, Sys2Proof.core.step u = o' at hstep ⊢
    cases hstep with
    | next ht => exact ih ht
    | fault f => exact .fault f
    | refused r => exact .refused r

/-- Settles O59: the two states are twins, so their runs are. -/
theorem mixedIsUnobservable : Obligations.MixedIsUnobservable := by
  intro s m k hb
  have h : TwinOutcomes (Sys2Proof.core.run k s) (Sys2Proof.core.run k { s with mixed := m }) :=
    run_twins k (.setMixed hb m)
  generalize Sys2Proof.core.run k s = o, Sys2Proof.core.run k { s with mixed := m } = o' at h ⊢
  cases h with
  | next ht => exact ht.withoutMixed_eq
  | fault f => rfl
  | refused r => rfl

end Sys2Proof.Machine
end

