-- ==== Sys2Proof/Proofs/TableWrites.lean ====
section
/-! PROOFS. The one instruction that writes the table memory is an accepted TDATA write (R29, R65). -/

namespace Sys2Proof

/-- An instruction is a command, a read or a write (R45, R46). -/
theorem Instr.command_or_access (i : Instr) :
    (∃ c : Command, i = c.toInstr) ∨ (∃ a, i = .rd a) ∨ ∃ a v, i = .wr a v := by
  cases i with
  | nop => exact .inl ⟨.nop, rfl⟩
  | runF r => exact .inl ⟨.runF r, rfl⟩
  | runI r => exact .inl ⟨.runI r, rfl⟩
  | subF => exact .inl ⟨.subF, rfl⟩
  | subI => exact .inl ⟨.subI, rfl⟩
  | mixF => exact .inl ⟨.mixF, rfl⟩
  | mixI => exact .inl ⟨.mixI, rfl⟩
  | clrst => exact .inl ⟨.clrst, rfl⟩
  | rd a => exact .inr (.inl ⟨a, rfl⟩)
  | wr a v => exact .inr (.inr ⟨a, v, rfl⟩)

end Sys2Proof

namespace Sys2Proof.Machine

/-! ### What leaves the table memory alone -/

@[simp] theorem State.readTdata_tbl (s : State) : s.readTdata.tbl = s.tbl := by
  simp [State.readTdata, apply_ite State.tbl]

@[simp] theorem State.readSt_tbl (j : Nat) (s : State) : (s.readSt j).tbl = s.tbl := by
  simp [State.readSt, apply_ite State.tbl]

@[simp] theorem State.writeTsel_tbl (v : BusWord) (s : State) : (s.writeTsel v).tbl = s.tbl := by
  simp [State.writeTsel, apply_ite State.tbl]

@[simp] theorem State.writeSt_tbl (j : Nat) (v : BusWord) (s : State) : (s.writeSt j v).tbl = s.tbl := by
  simp [State.writeSt, apply_ite State.tbl]

@[simp] theorem State.writeCmd_tbl (v : BusWord) (s : State) : (s.writeCmd v).tbl = s.tbl := by
  unfold State.writeCmd
  split
  · rfl
  · split <;> rfl

theorem exec_command_tbl {c : Command} {s t : State} (h : exec c.toInstr s = .next t) : t.tbl = s.tbl := by
  rw [exec_toInstr] at h
  rcases State.command_cases h with ⟨_, rfl⟩ | ⟨_, _, _, rfl⟩ | ⟨_, _, _, _, _, rfl⟩
  · simp [effectOf_frame]
  · simp [effectOf_frame]
  · rfl

theorem execRd_tbl {a : RegAddr} {s t : State} (h : execRd a s = .next t) : t.tbl = s.tbl := by
  unfold execRd at h
  generalize regAt s.n a = r at h
  cases r <;> cases h <;> simp

/-! ### What writes it -/

/-- The write rule of TDATA is in force: the engine is Idle and the selected slot exists (R65). -/
def State.TdataWritable (s : State) : Prop := s.eng = .idle ∧ s.tselSlot.toNat < s.n

/-- A TDATA write is refused, or writes the selected entry. -/
theorem State.writeTdata_tbl (v : BusWord) (s : State) :
    (s.writeTdata v).tbl = s.tbl ∨
      s.TdataWritable ∧ (s.writeTdata v).tbl = s.tbl.write (tselAddr s) (narrowed v) := by
  unfold State.writeTdata
  split
  · exact .inl rfl
  · next hslot =>
    split
    · exact .inl rfl
    · next hbusy =>
      have idle : s.eng = .idle := State.isBusy_eq_false_iff.1 (Bool.eq_false_iff.2 hbusy)
      have slotExists : s.tselSlot.toNat < s.n := by simpa [badSlot] using hslot
      exact .inr ⟨⟨idle, slotExists⟩, rfl⟩

theorem execWr_tbl {a : RegAddr} {v : BusWord} {s t : State} (h : execWr a v s = .next t) :
    t.tbl = s.tbl ∨ a = 0x05 ∧ s.TdataWritable ∧ t.tbl = s.tbl.write (tselAddr s) (narrowed v) := by
  unfold execWr at h
  generalize hr : regAt s.n a = r at h
  cases r <;> cases h
  case tdata => exact (s.writeTdata_tbl v).imp_right fun written => ⟨regAt_tdata_iff.1 hr, written⟩
  all_goals exact .inl (by simp [State.writeStatus])

/-- Settles O57: only a TDATA write changes the table memory at all, and it writes at the selected address only. -/
theorem onlyTableDataWritesTheTables : Obligations.OnlyTableDataWritesTheTables := by
  intro i s t a h changed
  have tblChanged : t.tbl ≠ s.tbl := fun e => changed (by rw [e])
  rcases i.command_or_access with ⟨c, rfl⟩ | ⟨b, rfl⟩ | ⟨b, v, rfl⟩
  · exact absurd (exec_command_tbl h) tblChanged
  · exact absurd (execRd_tbl h) tblChanged
  · obtain ⟨rfl, ⟨idle, slotExists⟩, written⟩ := (execWr_tbl h).resolve_left tblChanged
    refine ⟨⟨v, rfl⟩, idle, slotExists, ?_⟩
    by_contra other
    exact changed (by rw [written]; exact Memory.read_write_of_ne _ _ other)

end Sys2Proof.Machine
end

