-- ==== Sys2Proof/Proofs/BusyAccess.lean ====
section
/-! PROOFS. What a register access can do to a Busy engine: a refusal, an answer, or an update of the enables and
flags (R38 (c), R117). -/

namespace Sys2Proof.Machine

/-- `t` is `s` after an acknowledged access that reached only the enables, the flags, the port and the model's
count of draws. -/
def State.AccessedAs (s t : State) : Prop :=
  t = { s with ieDone := t.ieDone, ieErr := t.ieErr, done := t.done, err := t.err, errCode := t.errCode,
               rdata := t.rdata, ack := true, draws := t.draws }

theorem State.isBusy_of_not_idle {s : State} (h : s.eng ≠ .idle) : s.isBusy = true :=
  Bool.eq_true_of_not_eq_false (mt State.isBusy_eq_false_iff.1 h)

theorem State.AccessedAs.answer (v : BusWord) (s : State) : s.AccessedAs (s.answer v) := rfl

theorem State.AccessedAs.refused (code : ErrCode) (s : State) : s.AccessedAs (s.raise code).acked := rfl

section
variable {s : State} (hb : s.isBusy = true)
include hb

theorem State.writeCmd_of_busy (v : BusWord) : s.writeCmd v = s.raise .busy := if_pos hb

theorem State.writeTsel_of_busy (v : BusWord) : s.writeTsel v = s.raise .busy := if_pos hb

theorem State.writeSt_of_busy (j : Nat) (v : BusWord) : s.writeSt j v = s.raise .busy := if_pos hb

/-- BADADDR goes before BUSY (R103). -/
theorem State.writeTdata_of_busy (v : BusWord) :
    s.writeTdata v = s.raise (if badSlot s then .badaddr else .busy) := by
  unfold State.writeTdata
  rw [if_pos hb, apply_ite (State.raise · s)]

theorem State.readTdata_of_busy :
    s.readTdata = (s.raise (if badSlot s then .badaddr else .busy)).answer 0 := by
  unfold State.readTdata
  rw [if_pos hb, apply_ite fun code => (s.raise code).answer 0]

theorem State.readSt_of_busy (j : Nat) :
    s.readSt j = ({ s with draws := s.draws + 1 } : State).answer (widen (Config.freeWord s.draws)) := if_pos hb

theorem execRd_of_busy {a : RegAddr} {t : State} (h : execRd a s = .next t) : s.AccessedAs t := by
  unfold execRd at h
  generalize regAt s.n a = r at h
  cases r <;> cases h
  case tdata => rw [State.readTdata_of_busy hb]; rfl
  case st j => rw [State.readSt_of_busy hb]; rfl
  all_goals exact .answer _ s

theorem execWr_of_busy {a : RegAddr} {v : BusWord} {t : State} (h : execWr a v s = .next t) : s.AccessedAs t := by
  unfold execWr at h
  generalize regAt s.n a = r at h
  cases r <;> cases h
  case ctrl => rfl
  case status => rfl
  case cmd => rw [State.writeCmd_of_busy hb]; exact .refused _ s
  case tsel => rw [State.writeTsel_of_busy hb]; exact .refused _ s
  case tdata => rw [State.writeTdata_of_busy hb]; exact .refused _ s
  case st j => rw [State.writeSt_of_busy hb]; exact .refused _ s
  all_goals exact .refused _ s

end

/-- Settles O58: read by read and write by write, what would reach further is refused on a Busy engine. -/
theorem busyEngineIsOutOfReach : Obligations.BusyEngineIsOutOfReach := by
  intro i s t hne hi h
  have hb := State.isBusy_of_not_idle hne
  rcases hi with ⟨a, rfl⟩ | ⟨a, v, rfl⟩
  · exact execRd_of_busy hb h
  · exact execWr_of_busy hb h

end Sys2Proof.Machine
end

