-- ==== Sys2Proof/Proofs/StepEvents.lean ====
section
/-! PROOFS. The next event of a step, by kind: which instruction it runs, and that an ordinary one goes on and a
transaction is acknowledged. -/

namespace Sys2Proof.Machine

/-! ### The instruction a step runs -/

theorem engineCompletes_of_idle {s : State} (h : s.eng = .idle) : engineCompletes s = .next s := by
  simp [engineCompletes, h]

theorem engineCompletes_of_busy {s : State} {c : Command} {k : Nat} {p : Phase} (h : s.eng = .busy c k p) :
    engineCompletes s = exec c.toInstr s := by
  simp [engineCompletes, h]

/-- After reset, with no event left, the engine completes (log entry 6). -/
theorem step_no_event {s : State} (hr : s.resetDone = true) (he : s.events = []) :
    step s = engineCompletes (s.popEvent []) := by
  simp only [step, he, hr]

/-- After reset, to place an event first and take it off again is to lower `ack`. -/
theorem State.popEvent_placed {s : State} (hr : s.resetDone = true) (e : Event) :
    ({ s with events := e :: s.events, resetDone := true } : State).popEvent s.events = { s with ack := false } := by
  simp [State.popEvent, hr]

/-- A loaded command word runs as the command accepted into ENG (log entry 10). -/
theorem step_withFetchWord_command {s : State} (hr : s.resetDone = true) {w : Nat} {c : Command}
    (hc : decodeCommand (BitVec.ofNat 32 w) = .ok c) :
    step (s.withFetchWord 32 w) = exec c.toInstr { s.accept c with ack := false } := by
  have placed : s.withFetchWord 32 w =
      { s.accept c with events := .complete :: (s.accept c).events, resetDone := true } := by
    simp [State.withFetchWord, State.loadWord, hc]
  rw [placed, step_event rfl rfl, State.popEvent_placed (s := s.accept c) hr]
  exact engineCompletes_of_busy (s := { s.accept c with ack := false }) rfl

/-- A loaded transaction is the next one to take effect (log entry 10). -/
theorem step_withFetchWord_transaction {s : State} (hr : s.resetDone = true) (w : Nat) :
    step (s.withFetchWord 40 w) = exec (decodeTransaction (BitVec.ofNat 39 w)) { s with ack := false } := by
  have placed : s.withFetchWord 40 w =
      { s with events := .txn (BitVec.ofNat 39 w) :: s.events, resetDone := true } := rfl
  rw [placed, step_event rfl rfl, State.popEvent_placed hr]
  rfl

/-- Settles O53: the event of the step, or the completion when none is left, calls the instruction's meaning. -/
theorem stepRunsTheDecodedInstruction : Obligations.StepRunsTheDecodedInstruction := by
  intro s rest hr
  refine ⟨fun w he => step_event hr he, fun c k p he hb => ?_, fun c k p he hb => ?_, fun he hi => ?_,
    fun w c hc => step_withFetchWord_command hr hc, fun w => step_withFetchWord_transaction hr w⟩
  · exact (step_event hr he).trans (engineCompletes_of_busy hb)
  · exact (step_no_event hr he).trans (engineCompletes_of_busy hb)
  · rw [step_no_event hr he, engineCompletes_of_idle (s := s.popEvent []) hi, State.popEvent, ← he]

/-! ### Ordinary events go on -/

/-- After reset and with only ordinary events to come: what a run of ordinary events keeps. -/
def State.Ordinary (s : State) : Prop := s.resetDone = true ∧ ∀ e, e ∈ s.events → isOrdinary e = true

theorem State.Ordinary.step {s : State} (h : s.Ordinary) : ∃ t, step s = .next t ∧ t.Ordinary := by
  obtain ⟨hr, ho⟩ := h
  cases he : s.events with
  | nil =>
    obtain ⟨t, ht, hevents, hreset, _⟩ := onEvent_ordinary (e := .complete) (s.popEvent []) rfl
    exact ⟨t, (step_no_event hr he).trans ht, hreset.trans hr, by simp [hevents]⟩
  | cons e rest =>
    rw [he] at ho
    obtain ⟨t, ht, hevents, hreset, _⟩ := onEvent_ordinary (s.popEvent rest) (ho e List.mem_cons_self)
    refine ⟨t, (step_event hr he).trans ht, hreset.trans hr, fun e' he' => ho e' (List.mem_cons_of_mem e ?_)⟩
    simpa [hevents] using he'

theorem State.Ordinary.safeFor (k : Nat) {s : State} (h : s.Ordinary) : SafeFor k s := by
  induction k generalizing s with
  | zero => exact ⟨s, rfl⟩
  | succ k ih =>
    obtain ⟨t, ht, hord⟩ := h.step
    obtain ⟨u, hu⟩ := ih hord
    have hstep : Sys2Proof.core.step s = .next t := ht
    exact ⟨u, by simp only [Host.Core.run, hstep, hu]⟩

/-! ### Every transaction is acknowledged (R27) -/

@[simp] theorem State.readTdata_ack (s : State) : s.readTdata.ack = true := by
  simp [State.readTdata, apply_ite State.ack]

@[simp] theorem State.readSt_ack (j : Nat) (s : State) : (s.readSt j).ack = true := by
  simp [State.readSt, apply_ite State.ack]

theorem execRd_ack {a : RegAddr} {s t : State} (h : execRd a s = .next t) : t.ack = true := by
  unfold execRd at h
  generalize regAt s.n a = r at h
  cases r <;> cases h <;> simp

theorem execWr_ack {a : RegAddr} {v : BusWord} {s t : State} (h : execWr a v s = .next t) : t.ack = true := by
  unfold execWr at h
  generalize regAt s.n a = r at h
  cases r <;> cases h <;> rfl

theorem transaction_ack {w : Transaction} {s t : State} (h : exec (decodeTransaction w) s = .next t) :
    t.ack = true := by
  rcases decodeTransaction_cases w with ⟨a, e⟩ | ⟨a, v, e⟩ <;> rw [e] at h
  · exact execRd_ack h
  · exact execWr_ack h

/-- Settles O55: every step of an ordinary run goes on to an ordinary run, and every access ends in an
acknowledgement. -/
theorem ordinaryRunsNeverStop : Obligations.OrdinaryRunsNeverStop := by
  refine ⟨fun s k hr ho => State.Ordinary.safeFor k ⟨hr, ho⟩, fun s w rest hr he => ?_⟩
  obtain ⟨t, ht⟩ := exec_next (decodeTransaction w) (s.popEvent rest)
  obtain ⟨_, _, hevents⟩ := exec_outside ht
  exact ⟨t, (step_event hr he).trans ht, transaction_ack ht, hevents⟩

end Sys2Proof.Machine
end

