-- ==== Sys2Proof/Proofs/CommandDecoder.lean ====
section
/-! PROOFS. The command decoder answers a command exactly on that command's encodings (R46, R49), and BADCMD on the
words of no command (R50). -/

namespace Sys2Proof.Machine

/-! ### The decoder and the encoder are inverse -/

theorem wellFormed_runF {r : Nat} : Command.WellFormed (.runF r) ↔ r ≤ 65535 := decide_eq_true_iff

theorem wellFormed_runI {r : Nat} : Command.WellFormed (.runI r) ↔ r ≤ 65535 := decide_eq_true_iff

/-- A round count that fits IMM comes back from its 16 bits (R47). -/
theorem decodeCommand_encodeCommand {c : Command} (hc : c.WellFormed) : decodeCommand (encodeCommand c) = .ok c := by
  have count {r : Nat} (hr : r ≤ 65535) : (BitVec.ofNat 16 r).toNat = r :=
    Nat.mod_eq_of_lt (Nat.lt_succ_of_le hr)
  cases c with
  | runF r => simp [encodeCommand, decodeCommand_pack, -BitVec.toNat_ofNat, count (wellFormed_runF.1 hc)]
  | runI r => simp [encodeCommand, decodeCommand_pack, -BitVec.toNat_ofNat, count (wellFormed_runI.1 hc)]
  | _ => rfl

/-- The fields that a command is decoded from are the fields it is encoded with. -/
theorem encodeCommand_of_decode_pack {imm : Word} {d : Bool} {op : BitVec 4} {c : Command}
    (h : decodeCommand (packCommand imm d op) = .ok c) : encodeCommand c = packCommand imm d op := by
  rw [decodeCommand_pack] at h
  split at h
  · next run =>
    subst run
    cases d <;> cases h <;> simp [encodeCommand]
  · split at h
    · cases h
    · next himm =>
      obtain rfl : imm = 0 := not_not.1 himm
      split at h
      · next hnop => obtain ⟨rfl, rfl⟩ := hnop; cases h; rfl
      · split at h
        · next hsub => subst hsub; cases d <;> cases h <;> rfl
        · split at h
          · next hmix => subst hmix; cases d <;> cases h <;> rfl
          · split at h
            · next hclrst => obtain ⟨rfl, rfl⟩ := hclrst; cases h; rfl
            · cases h

theorem encodeCommand_of_decodeCommand {w : BusWord} {c : Command} (h : decodeCommand w = .ok c) :
    encodeCommand c = w := by
  have hrsv : cmdRsv w = 0 := by
    by_contra hne
    rw [decodeCommand, if_pos hne] at h
    cases h
  rw [← pack_fields w hrsv] at h ⊢
  exact encodeCommand_of_decode_pack h

theorem decodeCommand_eq_ok_iff {w : BusWord} {c : Command} :
    decodeCommand w = .ok c ↔ c.WellFormed ∧ w = encodeCommand c :=
  ⟨fun h => ⟨decodeCommand_wellFormed h, (encodeCommand_of_decodeCommand h).symm⟩,
    fun ⟨hc, hw⟩ => hw ▸ decodeCommand_encodeCommand hc⟩

/-- The one error of the decoder is what it answers when it answers no command. -/
theorem decodeCommand_eq_badcmd_iff {w : BusWord} :
    decodeCommand w = .error .badcmd ↔ ∀ c, decodeCommand w ≠ .ok c := by
  cases decodeCommand w with
  | ok c => simp
  | error e => cases e; simp

/-! ### Masks -/

theorem and_fullMask (w : BusWord) : w &&& 0xFFFFFFFF = w := BitVec.and_allOnes

theorem and_lowMask_eq_iff {w k : BusWord} : w &&& 0x0000FFFF = k ↔ w.toNat % 65536 = k.toNat := by
  rw [BitVec.toNat_eq, BitVec.toNat_and, ← Nat.and_two_pow_sub_one_eq_mod w.toNat 16]
  rfl

theorem packCommand_toNat (imm : Word) (d : Bool) (op : BitVec 4) :
    (packCommand imm d op).toNat = imm.toNat * 65536 + d.toNat * 16 + op.toNat := by
  simp only [packCommand, append_toNat, BitVec.toNat_ofBool, BitVec.toNat_ofNat]
  omega

/-- A command word with its round count in IMM, as the pair of R49: the low half is fixed, the high half is R. -/
theorem eq_packCommand_iff_mask {w : BusWord} {r : Nat} {d : Bool} {op : BitVec 4} :
    (r ≤ 65535 ∧ w = packCommand (BitVec.ofNat 16 r) d op) ↔
      w &&& 0x0000FFFF = packCommand 0 d op ∧ r = w.toNat / 65536 := by
  have hd := d.toNat_le
  have hop := op.isLt
  have hw := w.isLt
  rw [and_lowMask_eq_iff, BitVec.toNat_eq, packCommand_toNat, packCommand_toNat, BitVec.toNat_ofNat,
    show (0 : Word).toNat = 0 from rfl]
  omega

/-! ### The pairs of R49 -/

theorem decodeCommand_runF_iff {w : BusWord} {r : Nat} :
    decodeCommand w = .ok (.runF r) ↔ w &&& 0x0000FFFF = 0x00000001 ∧ r = w.toNat / 65536 := by
  rw [decodeCommand_eq_ok_iff, wellFormed_runF]
  exact eq_packCommand_iff_mask

theorem decodeCommand_runI_iff {w : BusWord} {r : Nat} :
    decodeCommand w = .ok (.runI r) ↔ w &&& 0x0000FFFF = 0x00000011 ∧ r = w.toNat / 65536 := by
  rw [decodeCommand_eq_ok_iff, wellFormed_runI]
  exact eq_packCommand_iff_mask

/-- A command without a round count has one word, and the whole word is its match. -/
theorem decodeCommand_single_iff {w k : BusWord} {c : Command} (hc : c.WellFormed) (hk : encodeCommand c = k) :
    decodeCommand w = .ok c ↔ w &&& 0xFFFFFFFF = k := by
  rw [decodeCommand_eq_ok_iff, and_fullMask, hk]
  exact and_iff_right hc

/-- Settles O3: the pair of a command is the set of its encodings, and BADCMD is what is left when all eight are
ruled out. -/
theorem commandDecoderIsTheMatchMaskTable : Obligations.CommandDecoderIsTheMatchMaskTable := by
  intro w
  have nop := decodeCommand_single_iff (w := w) (c := .nop) rfl rfl
  have subF := decodeCommand_single_iff (w := w) (c := .subF) rfl rfl
  have subI := decodeCommand_single_iff (w := w) (c := .subI) rfl rfl
  have mixF := decodeCommand_single_iff (w := w) (c := .mixF) rfl rfl
  have mixI := decodeCommand_single_iff (w := w) (c := .mixI) rfl rfl
  have clrst := decodeCommand_single_iff (w := w) (c := .clrst) rfl rfl
  refine ⟨nop, fun _ => decodeCommand_runF_iff, fun _ => decodeCommand_runI_iff, subF, subI, mixF, mixI, clrst, ?_⟩
  simp only [and_fullMask] at nop subF subI mixF mixI clrst
  rw [decodeCommand_eq_badcmd_iff]
  constructor
  · intro noCommand
    exact ⟨fun h => noCommand _ (decodeCommand_runF_iff.2 ⟨h, rfl⟩),
      fun h => noCommand _ (decodeCommand_runI_iff.2 ⟨h, rfl⟩), fun h => noCommand _ (nop.2 h),
      fun h => noCommand _ (subF.2 h), fun h => noCommand _ (subI.2 h), fun h => noCommand _ (mixF.2 h),
      fun h => noCommand _ (mixI.2 h), fun h => noCommand _ (clrst.2 h)⟩
  · rintro ⟨noRunF, noRunI, noNop, noSubF, noSubI, noMixF, noMixI, noClrst⟩ c h
    cases c with
    | nop => exact noNop (nop.1 h)
    | runF r => exact noRunF (decodeCommand_runF_iff.1 h).1
    | runI r => exact noRunI (decodeCommand_runI_iff.1 h).1
    | subF => exact noSubF (subF.1 h)
    | subI => exact noSubI (subI.1 h)
    | mixF => exact noMixF (mixF.1 h)
    | mixI => exact noMixI (mixI.1 h)
    | clrst => exact noClrst (clrst.1 h)

/-! ### Illegal words (R50) -/

/-- Test by test along R49: a test that answers a command rules out every reason of R50, a test that answers BADCMD
is one of them. -/
theorem decodeCommand_badcmd_iff_illegal {w : BusWord} :
    decodeCommand w = .error .badcmd ↔
      5 ≤ w.toNat % 16 ∨ w.toNat / 32 % 2048 ≠ 0 ∨ (w.toNat / 65536 ≠ 0 ∧ w.toNat % 16 ≠ 1) ∨
      (w.getLsbD 4 = true ∧ (w.toNat % 16 = 0 ∨ w.toNat % 16 = 4)) := by
  have hd : w.getLsbD 4 = true ↔ w.toNat / 16 % 2 = 1 := by
    rw [← cmdD_toNat, cmdD]
    exact Bool.toNat_eq_one.symm
  rw [decodeCommand_toNat, hd]
  split
  · exact iff_of_true rfl (by omega)
  · split
    · exact iff_of_false nofun (by omega)
    · split
      · exact iff_of_true rfl (by omega)
      · split
        · exact iff_of_false nofun (by omega)
        · split
          · exact iff_of_false nofun (by omega)
          · split
            · exact iff_of_false nofun (by omega)
            · split
              · exact iff_of_false nofun (by omega)
              · exact iff_of_true rfl (by omega)

theorem exec_wr_cmd (v : BusWord) (s : State) : exec (.wr 0x03 v) s = .next (s.writeCmd v).acked := rfl

theorem State.writeCmd_of_badcmd {v : BusWord} {s : State} (hv : decodeCommand v = .error .badcmd)
    (hs : s.eng = .idle) : s.writeCmd v = s.raise .badcmd := by
  simp [State.writeCmd, State.isBusy_of_idle hs, hv]

/-- Settles O4: which words fail a test of R49, and that the Idle engine raises BADCMD for them. -/
theorem illegalCommandWordsAreBadcmd : Obligations.IllegalCommandWordsAreBadcmd := by
  refine fun w s => ⟨decodeCommand_badcmd_iff_illegal, fun hw hs => ?_⟩
  rw [exec_wr_cmd, State.writeCmd_of_badcmd hw hs]
  rfl

end Sys2Proof.Machine
end

