-- ==== Sys2Proof/Proofs/Encoding.lean ====
section
/-! PROOFS. The encoder's words decode to what was encoded: commands by Proofs/CommandDecoder.lean, transactions by
their fields (R45). -/

namespace Sys2Proof.Machine

/-! ### Table words -/

theorem encode_toInstr (c : Command) : encode c.toInstr = (32, (encodeCommand c).toNat) := by cases c <;> rfl

theorem decodeTableWord_command {w : BusWord} {c : Command} (h : decodeCommand w = .ok c) :
    decodeTableWord 32 w.toNat = some c.toInstr := by
  simp [decodeTableWord, w.isLt, h]

theorem decodeTableWord_transaction (t : Transaction) :
    decodeTableWord 40 t.toNat = some (decodeTransaction t) := by
  simp [decodeTableWord, t.isLt]

/-- Settles O2: a command comes back from its word, a read or a write from the fields of its transaction. -/
theorem decodeOfEncodeIsTheInstruction : Obligations.DecodeOfEncodeIsTheInstruction := by
  intro i hi
  rcases i.command_or_access with ⟨c, rfl⟩ | ⟨a, rfl⟩ | ⟨a, v, rfl⟩
  · rw [encode_toInstr]
    exact decodeTableWord_command (decodeCommand_encodeCommand hi)
  · exact (decodeTableWord_transaction _).trans (congrArg some (decodeTransaction_pack_read a 0))
  · exact (decodeTableWord_transaction _).trans (congrArg some (decodeTransaction_pack_write a v))

/-! ### Transactions -/

/-- A transaction is given by the number of its fields (R45). -/
theorem eq_packTransaction {we : Bool} {a : RegAddr} {v : BusWord} {t : Transaction}
    (h : t.toNat = we.toNat * 2 ^ 38 + a.toNat * 2 ^ 32 + v.toNat) : t = packTransaction we a v :=
  BitVec.eq_of_toNat_eq (h.trans (packTransaction_toNat we a v).symm)

theorem hostTransaction_toInstr (c : Command) : hostTransaction c.toInstr = issueCommand c := by cases c <;> rfl

/-- Settles O5: every number is the transaction of its three fields, and a command is issued as a CMD write. -/
theorem everyTransactionDecodes : Obligations.EveryTransactionDecodes := by
  refine ⟨fun a v t => ⟨fun h => ?_, fun h => ?_⟩, fun c hc => ⟨?_, decodeCommand_encodeCommand hc⟩⟩
  · obtain rfl : t = packTransaction true a v := eq_packTransaction (by simpa using h)
    exact decodeTransaction_pack_write a v
  · obtain rfl : t = packTransaction false a v := eq_packTransaction (by simpa using h)
    exact decodeTransaction_pack_read a v
  · rw [hostTransaction_toInstr]
    exact decodeTransaction_pack_write cmdAddr (encodeCommand c)

/-- Settles O1: fourteen closed words, each evaluated by the decoder of its format. -/
theorem specWordsDecode : Obligations.SpecWordsDecode := by
  unfold Obligations.SpecWordsDecode
  decide

end Sys2Proof.Machine
end

