-- ==== Sys2Proof/Proofs/RegisterPort.lean ====
section
/-! PROOFS. The registers with an access of their own in every engine state: identification, CTRL, STATUS, and what
is reserved or read-only (R53 to R60, R70). -/

namespace Sys2Proof.Machine

/-! ### Words as numbers -/

theorem eq_ofNat_of_toNat {n k : Nat} {w : BitVec n} (h : w.toNat = k) : w = BitVec.ofNat n k := by
  rw [← h, BitVec.ofNat_toNat, BitVec.setWidth_eq]

theorem widen_eq_ofNat (w : Word) : widen w = BitVec.ofNat 32 w.toNat := (BitVec.ofNat_toNat 32 w).symm

/-- INDEX counts modulo 65536 (R64, R65). -/
theorem word_add_one_eq_ofNat (w : Word) : w + 1 = BitVec.ofNat 16 ((w.toNat + 1) % 65536) :=
  eq_ofNat_of_toNat (BitVec.toNat_add w 1)

theorem ctrlWord_eq_ofNat (s : State) : ctrlWord s = BitVec.ofNat 32 (s.ieDone.toNat + 2 * s.ieErr.toNat) :=
  eq_ofNat_of_toNat (ctrlWord_toNat s)

theorem State.isBusy_toNat (s : State) : s.isBusy.toNat = if s.eng = .idle then 0 else 1 := by
  by_cases h : s.eng = .idle
  · rw [State.isBusy_of_idle h, if_pos h]; rfl
  · rw [State.isBusy_of_not_idle h, if_neg h]; rfl

theorem statusWord_eq_ofNat (s : State) : statusWord s = BitVec.ofNat 32
    ((if s.eng = .idle then 0 else 1) + 2 * s.done.toNat + 4 * s.err.toNat + 16 * (errBits s.errCode).toNat) := by
  rw [← s.isBusy_toNat]
  exact eq_ofNat_of_toNat (statusWord_toNat s)

/-! ### Identification (R55) -/

/-- Settles O6: both registers are constants of the build. -/
theorem identificationReads : Obligations.IdentificationReads := by
  refine fun s => ⟨rfl, rfl, fun h => ?_, fun h => ?_, fun h => ?_⟩ <;> rw [Config.n, h]

/-! ### CTRL (R56, R57) -/

theorem exec_rd_ctrl (s : State) : exec (.rd 0x01) s = .next (s.answer (ctrlWord s)) := rfl

/-- Settles O7: the word of the two enables as a number; what a write stores is what the level of `irq` is made of. -/
theorem controlRegisterAccess : Obligations.ControlRegisterAccess := by
  refine fun s v => ⟨?_, (s.writeCtrl v).acked, rfl, rfl, rfl⟩
  rw [exec_rd_ctrl, ctrlWord_eq_ofNat]
  rfl

/-! ### STATUS (R58, R59) -/

theorem exec_rd_status (s : State) : exec (.rd 0x02) s = .next (s.answer (statusWord s)) := rfl

theorem exec_wr_status (v : BusWord) (s : State) : exec (.wr 0x02 v) s = .next (s.writeStatus v).acked := rfl

/-- Settles O8: the word of the flags as a number. -/
theorem statusReadShowsTheFlags : Obligations.StatusReadShowsTheFlags := by
  refine ⟨rfl, rfl, rfl, rfl, fun s => ?_⟩
  rw [exec_rd_status, statusWord_eq_ofNat]
  rfl

/-- Write 1 to clear, flag by flag. -/
theorem State.writeStatus_eq (v : BusWord) (s : State) : s.writeStatus v =
    { s with done := s.done && !v.getLsbD 1, err := s.err && !v.getLsbD 2,
             errCode := if v.getLsbD 2 then .none else s.errCode } := by
  have cleared (b flag : Bool) : (if b then false else flag) = (flag && !b) := by cases b <;> simp
  rw [← cleared, ← cleared]
  rfl

/-- Settles O9: the write clears what it names and leaves the running command, whose completion sets DONE. -/
theorem statusWriteClearsWhatItNames : Obligations.StatusWriteClearsWhatItNames := by
  refine fun s v => ⟨(s.writeStatus v).acked, exec_wr_status v s, ?_, fun c k p running => ?_⟩
  · rw [State.writeStatus_eq]
    rfl
  · exact ⟨_, exec_running (s := (s.writeStatus v).acked) running, rfl⟩

/-! ### Reads in general (R53, R60) -/

/-- A read of a state word is answered with some 16-bit word, at the cost of a draw at most. -/
theorem State.readSt_frame (j : Nat) (s : State) :
    ∃ (w : Word) (d : Nat), s.readSt j = { s with rdata := widen w, ack := true, draws := d } := by
  unfold State.readSt
  split
  · exact ⟨_, _, rfl⟩
  · exact ⟨_, s.draws, rfl⟩

theorem execRd_frame {a : RegAddr} (ha : a ≠ 0x05) (s : State) :
    ∃ v d, execRd a s = .next { s with rdata := v, ack := true, draws := d } := by
  unfold execRd
  generalize hr : regAt s.n a = r
  cases r
  case tdata => exact absurd (regAt_tdata_iff.1 hr) ha
  case st j =>
    obtain ⟨w, d, e⟩ := s.readSt_frame j
    exact ⟨widen w, d, congrArg Host.Outcome.next e⟩
  all_goals exact ⟨_, s.draws, rfl⟩

theorem execRd_of_reserved {a : RegAddr} {s : State} (h : regAt s.n a = .reserved) :
    execRd a s = .next (s.answer 0) := by
  simp only [execRd, h]

/-- Settles O10: register by register a read is an answer, and the reserved addresses answer zero. -/
theorem readsHaveNoSideEffect : Obligations.ReadsHaveNoSideEffect :=
  fun _ s => ⟨fun ha => execRd_frame ha s, rfl, fun reserved => execRd_of_reserved (regAt_reserved reserved)⟩

/-! ### Addresses no write reaches (R70) -/

theorem regAt_ctrl_iff {n : Nat} {a : RegAddr} : regAt n a = .ctrl ↔ a = 0x01 :=
  ⟨fun h => regAt_fixed (n := n) (b := 0x01) (by decide) h, fun h => h ▸ rfl⟩

/-- The word addresses that have a write rule: CTRL to TDATA and the state words that exist. -/
def HasWriteRule (n : Nat) (a : RegAddr) : Prop :=
  (1 ≤ a.toNat ∧ a.toNat ≤ 5) ∨ (16 ≤ a.toNat ∧ a.toNat < 16 + n)

theorem hasWriteRule_of_regAt_st {n j : Nat} {a : RegAddr} (hn : n ≤ 16) (h : regAt n a = .st j) :
    HasWriteRule n a := by
  obtain ⟨hj, rfl⟩ := regAt_st_lt h
  right
  rw [BitVec.toNat_ofNat, Nat.mod_eq_of_lt (by omega)]
  omega

theorem execWr_of_noWriteRule {a : RegAddr} {s : State} (ha : ¬ HasWriteRule s.n a) (v : BusWord) :
    execWr a v s = .next (s.raise .badaddr).acked := by
  have notFixed {b : RegAddr} (hb : 1 ≤ b.toNat ∧ b.toNat ≤ 5) : a ≠ b := fun e => ha (.inl (e ▸ hb))
  unfold execWr
  generalize hr : regAt s.n a = r
  cases r
  case ctrl => exact absurd (regAt_ctrl_iff.1 hr) (notFixed (by decide))
  case status => exact absurd (regAt_status_iff.1 hr) (notFixed (by decide))
  case cmd => exact absurd (regAt_cmd_iff.1 hr) (notFixed (by decide))
  case tsel => exact absurd (regAt_tsel_iff.1 hr) (notFixed (by decide))
  case tdata => exact absurd (regAt_tdata_iff.1 hr) (notFixed (by decide))
  case st j => exact absurd (hasWriteRule_of_regAt_st (Config.n_le s.cfg) hr) ha
  all_goals rfl

/-- Settles O22: none of these addresses has a write rule. -/
theorem reservedAndReadOnlyWritesAreErrors : Obligations.ReservedAndReadOnlyWritesAreErrors := by
  intro s a v ha
  have noRule : ¬ HasWriteRule s.n a := by
    have hn : s.n ≤ 16 := Config.n_le s.cfg
    unfold HasWriteRule
    rcases ha with rfl | rfl | rfl | ha | ha | ha
    · simp
    · simp
    · simp
    · omega
    · omega
    · omega
  exact execWr_of_noWriteRule noRule v

end Sys2Proof.Machine
end


-- ==== Sys2Proof/Proofs/TableAccess.lean ====
section
/-! PROOFS. The table window: TSEL selects an entry, TDATA reads or writes it and goes on to the next (R62 to R65). -/

namespace Sys2Proof.Machine

/-! ### TSEL (R62, R63) -/

theorem dirBit_toNat (b : Dir) : (dirBit b).toNat = if b = .inverse then 1 else 0 := by cases b <;> rfl

theorem tselWord_eq_ofNat (s : State) : tselWord s = BitVec.ofNat 32 (s.tselIndex.toNat + 65536 * s.tselSlot.toNat +
    1048576 * (if s.tselBank = .inverse then 1 else 0)) := by
  rw [← dirBit_toNat]
  exact eq_ofNat_of_toNat (tselWord_toNat s)

theorem tselSlotOf_eq_ofNat (v : BusWord) : tselSlotOf v = BitVec.ofNat 4 (v.toNat / 65536) :=
  congrArg (BitVec.ofNat 4) (Nat.shiftRight_eq_div_pow v.toNat 16)

theorem tselBankOf_eq (v : BusWord) : tselBankOf v = if v.toNat / 1048576 % 2 = 1 then .inverse else .forward := by
  have bit : v.getLsbD 20 = decide (v.toNat / 1048576 % 2 = 1) := Nat.testBit_eq_decide_div_mod_eq
  simp only [tselBankOf, bit, decide_eq_true_eq]

theorem exec_rd_tsel (s : State) : exec (.rd 0x04) s = .next (s.answer (tselWord s)) := rfl

theorem exec_wr_tsel (v : BusWord) (s : State) : exec (.wr 0x04 v) s = .next (s.writeTsel v).acked := rfl

/-- Settles O11: the word of the three fields as a number. -/
theorem tableSelectRead : Obligations.TableSelectRead := by
  intro s
  rw [exec_rd_tsel, tselWord_eq_ofNat]
  rfl

theorem State.writeTsel_of_idle {s : State} (hs : s.eng = .idle) (v : BusWord) : s.writeTsel v =
    { s with tselIndex := tselIndexOf v, tselSlot := tselSlotOf v, tselBank := tselBankOf v } := by
  simp [State.writeTsel, State.isBusy_of_idle hs]

/-- Settles O12: the three fields cut out of the word, and the refusal of a Busy engine. -/
theorem tableSelectWrite : Obligations.TableSelectWrite := by
  refine fun s v => ⟨fun idle => ?_, fun busy => ?_⟩
  · rw [exec_wr_tsel, State.writeTsel_of_idle idle, tselSlotOf_eq_ofNat, tselBankOf_eq]
    rfl
  · rw [exec_wr_tsel, State.writeTsel_of_busy (State.isBusy_of_not_idle busy)]
    rfl

/-! ### TDATA (R64, R65) -/

theorem exec_rd_tdata (s : State) : exec (.rd 0x05) s = .next s.readTdata := rfl

theorem exec_wr_tdata (v : BusWord) (s : State) : exec (.wr 0x05 v) s = .next (s.writeTdata v).acked := rfl

theorem badSlot_iff {s : State} : badSlot s = true ↔ s.n ≤ s.tselSlot.toNat := decide_eq_true_iff

theorem badSlot_eq_false_iff {s : State} : badSlot s = false ↔ s.tselSlot.toNat < s.n := by simp [badSlot]

theorem State.readTdata_of_badSlot {s : State} (h : badSlot s = true) :
    s.readTdata = (s.raise .badaddr).answer 0 := if_pos h

theorem State.writeTdata_of_badSlot {s : State} (h : badSlot s = true) (v : BusWord) :
    s.writeTdata v = s.raise .badaddr := if_pos h

section
variable {s : State} (h : s.TdataWritable)
include h

theorem State.TdataWritable.readTdata : s.readTdata =
    ({ s with tselIndex := s.tselIndex + 1, draws := s.draws + 1 } : State).answer
      (widen (s.tbl.lookup s.tselBank s.tselSlot.toNat s.tselIndex s.draws)) := by
  simp [State.readTdata, badSlot_eq_false_iff.2 h.2, State.isBusy_of_idle h.1]

theorem State.TdataWritable.writeTdata (v : BusWord) : s.writeTdata v =
    { s with tbl := s.tbl.write (tselAddr s) (narrowed v), tselIndex := s.tselIndex + 1 } := by
  simp [State.writeTdata, badSlot_eq_false_iff.2 h.2, State.isBusy_of_idle h.1]

end

/-- Settles O13: the three cases of the rule in its order; a lookup of a written entry is that entry. -/
theorem tableDataRead : Obligations.TableDataRead := by
  refine fun s => ⟨fun noSlot => ?_, fun slot busy => ?_, fun slot idle => ?_⟩
  · rw [exec_rd_tdata, State.readTdata_of_badSlot (badSlot_iff.2 noSlot)]
    rfl
  · rw [exec_rd_tdata, State.readTdata_of_busy (State.isBusy_of_not_idle busy), badSlot_eq_false_iff.2 slot]
    rfl
  · refine ⟨_, s.draws + 1, ?_, fun _ written => Memory.lookup_of_read s.draws written⟩
    rw [exec_rd_tdata, State.TdataWritable.readTdata ⟨idle, slot⟩, word_add_one_eq_ofNat, widen_eq_ofNat]
    rfl

/-- Settles O14: the three cases of the rule in its order; the memory after is a write at the selected address. -/
theorem tableDataWrite : Obligations.TableDataWrite := by
  refine fun s v => ⟨fun noSlot => ?_, fun slot busy => ?_, fun slot idle => ?_⟩
  · rw [exec_wr_tdata, State.writeTdata_of_badSlot (badSlot_iff.2 noSlot)]
    rfl
  · rw [exec_wr_tdata, State.writeTdata_of_busy (State.isBusy_of_not_idle busy), badSlot_eq_false_iff.2 slot]
    rfl
  · refine ⟨s.tbl.write (tselAddr s) (narrowed v), ?_, Memory.read_write_same _ _ _,
      fun _ other => Memory.read_write_of_ne _ _ other⟩
    rw [exec_wr_tdata, State.TdataWritable.writeTdata ⟨idle, slot⟩, word_add_one_eq_ofNat]
    rfl

/-! ### A table load (R65, its corner case) -/

/-- The memory after the values `vs` are written to consecutive entries of slot `j` of bank `b`, from index `x` on. -/
def Memory.load (b : Dir) (j : Nat) : Memory → Word → List BusWord → Memory
  | m, _, [] => m
  | m, x, v :: vs => Memory.load b j (m.write (entryAddr b j x) (narrowed v)) (x + 1) vs

theorem add_ofNat_succ (x : Word) (i : Nat) : x + BitVec.ofNat 16 (i + 1) = x + 1 + BitVec.ofNat 16 i := by
  rw [Nat.add_comm, BitVec.ofNat_add]
  exact (BitVec.add_assoc x 1 _).symm

theorem add_ofNat_eq_ofNat (x : Word) (i : Nat) : x + BitVec.ofNat 16 i = BitVec.ofNat 16 (x.toNat + i) := by
  rw [BitVec.ofNat_add, BitVec.ofNat_toNat, BitVec.setWidth_eq]

/-- Fewer than 65536 steps of the index do not lead back to it. -/
theorem index_ne_later (x : Word) {i : Nat} (hi : i + 1 < 65536) : x ≠ x + 1 + BitVec.ofNat 16 i := by
  rw [← add_ofNat_succ]
  bv_omega

theorem Memory.read_load_of_ne {b : Dir} {j a : Nat} {m : Memory} {x : Word} {vs : List BusWord}
    (h : ∀ i, i < vs.length → a ≠ entryAddr b j (x + BitVec.ofNat 16 i)) :
    (Memory.load b j m x vs).read a = m.read a := by
  induction vs generalizing m x with
  | nil => rfl
  | cons v vs ih =>
    have first : a ≠ entryAddr b j x := by simpa using h 0 (Nat.succ_pos _)
    have later : ∀ i, i < vs.length → a ≠ entryAddr b j (x + 1 + BitVec.ofNat 16 i) := fun i hi => by
      simpa only [add_ofNat_succ] using h (i + 1) (Nat.succ_lt_succ hi)
    rw [Memory.load, ih later, Memory.read_write_of_ne _ _ first]

/-- Up to a whole slot, no entry is written twice. -/
theorem Memory.read_load {b : Dir} {j : Nat} (hj : j < 16) {m : Memory} {x : Word} {vs : List BusWord}
    (hlen : vs.length ≤ 65536) {i : Nat} (hi : i < vs.length) :
    (Memory.load b j m x vs).read (entryAddr b j (x + BitVec.ofNat 16 i)) = some (narrowed (vs.getD i 0)) := by
  induction vs generalizing m x i with
  | nil => cases hi
  | cons v vs ih =>
    rw [List.length_cons] at hlen hi
    cases i with
    | zero =>
      have notLater : ∀ i, i < vs.length → entryAddr b j x ≠ entryAddr b j (x + 1 + BitVec.ofNat 16 i) :=
        fun i hi e => index_ne_later x (by omega) (entryAddr_inj hj hj e).2.2
      rw [BitVec.add_zero, Memory.load, Memory.read_load_of_ne notLater,
        Memory.read_write_same]
      rfl
    | succ i =>
      rw [add_ofNat_succ]
      exact ih (by omega) (by omega)

/-- The transactions of a table load as events. -/
def loadEvents (vs : List BusWord) : List Event := vs.map fun v => .txn (packTransaction true 0x05 v)

/-- One TDATA write of a load, as a step. -/
theorem step_tdata_write {s : State} {v : BusWord} {es : List Event} (hr : s.resetDone = true)
    (hw : s.TdataWritable) (he : s.events = .txn (packTransaction true 0x05 v) :: es) :
    step s = .next { s with tbl := s.tbl.write (tselAddr s) (narrowed v), tselIndex := s.tselIndex + 1,
                            ack := true, events := es } := by
  have popped : (s.popEvent es).TdataWritable := hw
  rw [step_event hr he, onEvent, decodeTransaction_pack_write, exec_wr_tdata, popped.writeTdata]
  rfl

/-- The state a load leads to, `ack` apart: it is high if anything was written. -/
def State.loaded (vs : List BusWord) (ack : Bool) (s : State) : State :=
  { s with tbl := Memory.load s.tselBank s.tselSlot.toNat s.tbl s.tselIndex vs,
           tselIndex := s.tselIndex + BitVec.ofNat 16 vs.length, ack := ack, events := [] }

theorem State.loaded_nil {s : State} (he : s.events = []) : s.loaded [] s.ack = s := by
  cases s
  cases he
  simp [State.loaded, Memory.load]

theorem run_loadEvents {s : State} {vs : List BusWord} (hr : s.resetDone = true) (hw : s.TdataWritable)
    (he : s.events = loadEvents vs) : ∃ ack, Sys2Proof.core.run vs.length s = .next (s.loaded vs ack) := by
  induction vs generalizing s with
  | nil => exact ⟨s.ack, congrArg Host.Outcome.next (State.loaded_nil he).symm⟩
  | cons v vs ih =>
    have hstep : Sys2Proof.core.step s = .next _ := step_tdata_write hr hw he
    obtain ⟨ack, hrun⟩ := ih (s := { s with tbl := s.tbl.write (tselAddr s) (narrowed v),
                                            tselIndex := s.tselIndex + 1, ack := true, events := loadEvents vs })
      hr hw rfl
    refine ⟨ack, ?_⟩
    simp only [List.length_cons, Host.Core.run, hstep, State.loaded, add_ofNat_succ]
    exact hrun

/-- Settles O15: the run leads to the loaded memory, which reads as the values where they were written. -/
theorem tableLoadFillsConsecutiveEntries : Obligations.TableLoadFillsConsecutiveEntries := by
  intro s vs hr idle slot hlen he
  obtain ⟨ack, hrun⟩ := run_loadEvents hr ⟨idle, slot⟩ he
  simp only [← add_ofNat_eq_ofNat]
  exact ⟨s.loaded vs ack, hrun, rfl, rfl, rfl, rfl, rfl, fun _ hi => Memory.read_load s.tselSlot.isLt hlen hi,
    fun _ elsewhere => Memory.read_load_of_ne elsewhere⟩

end Sys2Proof.Machine
end


-- ==== Sys2Proof/Proofs/RoundCount.lean ====
section
/-! PROOFS. RCNT counts the rounds completed by the running RUN (R19): it is at most R, takes every value up to R,
and does not fall (R66). -/

namespace Sys2Proof.Machine

theorem exec_rd_rcnt (s : State) : exec (.rd 0x06) s = .next (s.answer (widen s.rcnt)) := rfl

theorem widen_toNat (w : Word) : (widen w).toNat = w.toNat := by
  rw [widen_eq_ofNat, BitVec.toNat_ofNat, Nat.mod_eq_of_lt (by omega)]

/-- The engine runs a RUN #r of either direction, with `k` rounds completed. -/
def State.Runs (s : State) (r k : Nat) (p : Phase) : Prop :=
  s.eng = .busy (.runF r) k p ∨ s.eng = .busy (.runI r) k p

/-- RCNT holds the number of rounds completed, which fits its 16 bits. -/
theorem State.Inv.rcnt_toNat {s : State} (hi : s.Inv) {r k : Nat} {p : Phase} (h : s.Runs r k p) :
    s.rcnt.toNat = k ∧ k ≤ r ∧ r ≤ 65535 := by
  have progress : r ≤ 65535 ∧ k ≤ r ∧ s.rcnt = BitVec.ofNat 16 k := by
    have heng := hi.eng
    rcases h with h | h <;> simp only [engOk, h] at heng
    · obtain ⟨_, hr, hk, _, hcount⟩ := heng
      exact ⟨wellFormed_runF.1 hr, hk, hcount⟩
    · obtain ⟨_, hr, hk, _, hcount⟩ := heng
      exact ⟨wellFormed_runI.1 hr, hk, hcount⟩
  obtain ⟨hr, hk, hcount⟩ := progress
  refine ⟨?_, hk, hr⟩
  rw [hcount, BitVec.toNat_ofNat, Nat.mod_eq_of_lt (by omega)]

/-- Settles O16: the value read is the number of rounds completed. -/
theorem roundCountRead : Obligations.RoundCountRead := by
  refine fun s => ⟨s.answer (widen s.rcnt), exec_rd_rcnt s, ?_, fun r k p hi runs => ?_⟩
  · rw [widen_eq_ofNat]
    rfl
  · obtain ⟨hcount, hk, _⟩ := hi.rcnt_toNat runs
    rw [State.answer_rdata, widen_toNat, hcount]
    exact hk

/-- After `v` whole rounds the command still runs and RCNT has advanced by `v`. -/
theorem State.Runs.advanceBy {s : State} {r k v : Nat} (h : s.Runs r k .first) (hv : k + v ≤ r) :
    (s.advanceBy (2 * v)).rcnt = s.rcnt + BitVec.ofNat 16 v ∧ (s.advanceBy (2 * v)).Runs r (k + v) .first := by
  rcases h with h | h
  · obtain ⟨_, e⟩ := State.advanceBy_runF h hv
    rw [e]
    exact ⟨rfl, .inl rfl⟩
  · obtain ⟨_, e⟩ := State.advanceBy_runI h hv
    rw [e]
    exact ⟨rfl, .inr rfl⟩

theorem State.Runs.isBusy {s : State} {r k : Nat} {p : Phase} (h : s.Runs r k p) : s.isBusy = true :=
  h.elim State.isBusy_of_busy State.isBusy_of_busy

/-- Settles O17: RCNT reads `v` after `v` whole rounds. -/
theorem roundCountReadAdmitsEveryCount : Obligations.RoundCountReadAdmitsEveryCount := by
  intro s r v hr hv hzero (runs : s.Runs r 0 .first)
  obtain ⟨hcount, still⟩ := runs.advanceBy (v := v) (by omega)
  refine ⟨2 * v, _, exec_rd_rcnt _, ?_, still.isBusy⟩
  rw [State.answer_rdata, widen_toNat, hcount, hzero, zero_add, BitVec.toNat_ofNat,
    Nat.mod_eq_of_lt (by omega)]

/-- Progress counts a round or none, and a round short of `r` does not overflow RCNT. -/
theorem State.Inv.rcnt_le_advance {s : State} (hi : s.Inv) : s.rcnt.toNat ≤ s.advance.rcnt.toNat := by
  have counted {r k : Nat} {p : Phase} (runs : s.Runs r k p) (hk : k < r) : s.rcnt.toNat ≤ (s.rcnt + 1).toNat := by
    obtain ⟨hcount, _, hr⟩ := hi.rcnt_toNat runs
    bv_omega
  rcases s.advance_cases with e | ⟨r, k, p, h, hk, e⟩ | ⟨r, k, p, h, hk, e⟩ <;> rw [e]
  · cases p with
    | first => exact Nat.le_refl _
    | second => exact counted (.inl h) hk
  · cases p with
    | first => exact Nat.le_refl _
    | second => exact counted (.inr h) hk

theorem transaction_rcnt_of_busy {w : Transaction} {s t : State} (hb : s.isBusy = true)
    (h : exec (decodeTransaction w) s = .next t) : t.rcnt = s.rcnt := by
  have accessed : s.AccessedAs t := by
    rcases decodeTransaction_cases w with ⟨a, e⟩ | ⟨a, v, e⟩ <;> rw [e] at h
    · exact execRd_of_busy hb h
    · exact execWr_of_busy hb h
  rw [accessed]

theorem engineCompletes_idle {s t : State} (h : engineCompletes s = .next t) : t.eng = .idle := by
  rcases engineCompletes_cases h with ⟨idle, rfl⟩ | ⟨_, _, _, _, rfl⟩
  · exact idle
  · rfl

/-- An event that leaves a Busy engine Busy does not lower RCNT. -/
theorem onEvent_rcnt_le {e : Event} {s t : State} (hi : s.Inv) (hb : s.isBusy = true) (ht : t.eng ≠ .idle)
    (h : onEvent e s = .next t) : s.rcnt.toNat ≤ t.rcnt.toNat := by
  rcases onEvent_cases h with ⟨_, rfl⟩ | ⟨_, rfl⟩ | ⟨w, _, hw⟩ | ⟨_, rfl⟩ | ⟨_, hc⟩
  · exact Nat.le_refl _
  · exact absurd rfl ht
  · rw [transaction_rcnt_of_busy hb hw]
  · exact hi.rcnt_le_advance
  · exact absurd (engineCompletes_idle hc) ht

/-- Settles O18: reset and completion end the command, and no other event lowers RCNT; power-up leaves the registers
standing (log entry 9). -/
theorem roundCountNeverFallsDuringARun : Obligations.RoundCountNeverFallsDuringARun := by
  intro s t c k k' p p' hi h hs ht
  have busy : s.isBusy = true := State.isBusy_of_busy hs
  have notIdle : t.eng ≠ .idle := by rw [ht]; exact nofun
  rcases step_cases h with ⟨e, rest, _, ⟨_, he⟩ | ⟨_, rfl⟩ | ⟨_, rfl⟩⟩ | ⟨_, _, hc⟩
  · exact onEvent_rcnt_le (s := s.popEvent rest) (hi.popEvent rest) busy notIdle he
  · exact Nat.le_refl _
  · exact absurd rfl notIdle
  · exact absurd (engineCompletes_idle hc) notIdle

end Sys2Proof.Machine
end


-- ==== Sys2Proof/Proofs/StateAndMatrixWindows.lean ====
section
/-! PROOFS. The windows of the state words and of the matrix rows (R67 to R69). -/

namespace Sys2Proof.Machine

/-! ### The addresses of the windows -/

section
variable {s : State} {j : Nat} (hj : j < s.n)
include hj

theorem exec_rd_st : exec (.rd (BitVec.ofNat 6 (0x10 + j))) s = .next (s.readSt j) := by
  simp only [exec, execRd, regAt_st hj (Config.n_le s.cfg)]

theorem exec_wr_st (v : BusWord) : exec (.wr (BitVec.ofNat 6 (0x10 + j)) v) s = .next (s.writeSt j v).acked := by
  simp only [exec, execWr, regAt_st hj (Config.n_le s.cfg)]

theorem exec_rd_matF :
    exec (.rd (BitVec.ofNat 6 (0x20 + j))) s = .next (s.answer (rowWord s.n s.cfg.matF j)) := by
  simp only [exec, execRd, regAt_matF hj (Config.n_le s.cfg)]

theorem exec_rd_matI :
    exec (.rd (BitVec.ofNat 6 (0x30 + j))) s = .next (s.answer (rowWord s.n s.cfg.matI j)) := by
  simp only [exec, execRd, regAt_matI hj (Config.n_le s.cfg)]

end

/-! ### State words (R67, R68) -/

theorem State.readSt_of_idle {s : State} (hs : s.eng = .idle) (j : Nat) :
    s.readSt j = s.answer (widen (wordAt s.st j)) := by
  simp [State.readSt, State.isBusy_of_idle hs]

theorem State.writeSt_of_idle {s : State} (hs : s.eng = .idle) (j : Nat) (v : BusWord) :
    s.writeSt j v = { s with st := s.st.set j (narrowed v) } := by
  simp [State.writeSt, State.isBusy_of_idle hs]

/-- Settles O19: the word while Idle, a word of the model's choice while Busy. -/
theorem stateWordRead : Obligations.StateWordRead := by
  refine fun s j hj => ⟨fun idle => ?_, fun _ => ?_⟩ <;> rw [exec_rd_st hj]
  · rw [State.readSt_of_idle idle, widen_eq_ofNat]
    rfl
  · obtain ⟨w, d, e⟩ := s.readSt_frame j
    exact ⟨w, d, by rw [e, widen_eq_ofNat]⟩

/-- Settles O20: a list update of word j while Idle, a refusal while Busy. -/
theorem stateWordWrite : Obligations.StateWordWrite := by
  refine fun s j v hj hlen => ⟨fun idle => ?_, fun busy => ?_⟩ <;> rw [exec_wr_st hj]
  · refine ⟨s.st.set j (narrowed v), ?_, ?_, wordAt_set_same _ (hlen ▸ hj),
      fun _ other => wordAt_set_of_ne _ other⟩
    · rw [State.writeSt_of_idle idle]
      rfl
    · rw [List.length_set, hlen]
  · rw [State.writeSt_of_busy (State.isBusy_of_not_idle busy)]
    rfl

/-! ### Matrix rows (R69) -/

theorem rowWord_getLsbD {n : Nat} (hn : n ≤ 16) (m : List Word) (j i : Nat) :
    (rowWord n m j).getLsbD i = (decide (i < n) && matEntry m j i) := by
  rw [rowWord, widen, BitVec.getLsbD_setWidth, bitsToWord_getLsbD _ hn]
  by_cases hi : i < n
  · rw [decide_eq_true (show i < 32 by omega), Bool.true_and]
  · simp [hi]

/-- Settles O21: both windows return the packed row, whose bits are the matrix entries. -/
theorem matrixRowReads : Obligations.MatrixRowReads := by
  intro s j hj
  have bits (m : List Word) : ∀ i, (rowWord s.n m j).getLsbD i = (decide (i < s.n) && matEntry m j i) :=
    rowWord_getLsbD (Config.n_le s.cfg) m j
  exact ⟨⟨_, exec_rd_matF hj, bits s.cfg.matF⟩, ⟨_, exec_rd_matI hj, bits s.cfg.matI⟩⟩

end Sys2Proof.Machine
end


-- ==== Sys2Proof/Proofs/Confusion.lean ====
section
/-! PROOFS. A confusion step looks up each word in its slot of one bank (R71, R76, R77), and the inverse tables undo it
(R75). -/

namespace Sys2Proof.Machine

/-! ### Commands other than RUN -/

/-- Such a command does the same from Idle as when it runs: acceptance changes DONE and ENG only (R86), and completion
sets both (R87). -/
theorem exec_of_not_run {c : Command} {s : State} (hc : isRun c = false)
    (ready : s.eng = .idle ∨ ∃ k p, s.eng = .busy c k p) : exec c.toInstr s = .next (effectOf c s).finish := by
  rcases ready with idle | ⟨k, p, running⟩
  · rw [exec_idle c idle]
    cases c with
    | runF r => cases hc
    | runI r => cases hc
    | nop => rfl
    | subF => rfl
    | subI => rfl
    | mixF => rfl
    | mixI => rfl
    | clrst => rfl
  · exact exec_running running

/-! ### One confusion step (R71) -/

/-- Where the entry looked up is written, it is the word of the result, whatever the draws. -/
theorem wordAt_subVec_of_read {m : Memory} {n j : Nat} {b : Dir} {v : List Word} {x : Word} (d : Nat) (hj : j < n)
    (hx : m.read (entryAddr b j (wordAt v j)) = some x) : wordAt (subVec m n b d v) j = x :=
  (wordAt_subVec m b d v hj).trans (Memory.lookup_of_read _ hx)

/-- A command whose effect is the confusion step with bank `b` looks up bank `b` and completes. -/
theorem exec_looksUp {c : Command} {b : Dir} {s : State} (hc : isRun c = false)
    (confusion : effectOf c = State.subLayer b) (ready : s.eng = .idle ∨ ∃ k p, s.eng = .busy c k p) :
    ∃ (w : List Word) (d : Nat), exec c.toInstr s = .next { s with st := w, draws := d, done := true, eng := .idle } ∧
      w.length = s.n ∧
      ∀ j x, j < s.n → s.tbl.read (entryAddr b j (wordAt s.st j)) = some x → wordAt w j = x := by
  rw [exec_of_not_run hc ready, confusion]
  exact ⟨_, _, rfl, subVec_length _ _ _ _ _, fun _ _ hj hx => wordAt_subVec_of_read _ hj hx⟩

/-- Settles O35: SUB.F is the confusion step with bank 0, completed. -/
theorem subForwardLooksUpBankZero : Obligations.SubForwardLooksUpBankZero :=
  ⟨by decide, fun _ => exec_looksUp (c := .subF) rfl rfl⟩

/-- Settles O36: SUB.I is the confusion step with bank 1, completed. -/
theorem subInverseLooksUpBankOne : Obligations.SubInverseLooksUpBankOne :=
  ⟨by decide, fun _ => exec_looksUp (c := .subI) rfl rfl⟩

/-! ### Inverse tables (R75) -/

/-- A bank `b'` that maps every entry of bank `b` back to its index undoes the confusion step with bank `b`. -/
theorem subVec_subVec_of_inverse {m : Memory} {n : Nat} {b b' : Dir} {v : List Word} (d e : Nat) (hv : v.length = n)
    (inverse : ∀ j, j < n → ∀ w, ∃ y, m.read (entryAddr b j w) = some y ∧ m.read (entryAddr b' j y) = some w) :
    subVec m n b' e (subVec m n b d v) = v := by
  refine vec_ext (subVec_length _ _ _ _ _) hv fun j hj => ?_
  obtain ⟨y, there, back⟩ := inverse j hj (wordAt v j)
  have mapped : wordAt (subVec m n b d v) j = y := wordAt_subVec_of_read d hj there
  exact wordAt_subVec_of_read e hj (mapped ▸ back)

/-- Settles O44: either bank, as the inverse of the other. -/
theorem inverseTablesUndoConfusion : Obligations.InverseTablesUndoConfusion :=
  fun _ _ d e _ hv => ⟨subVec_subVec_of_inverse d e hv, subVec_subVec_of_inverse d e hv⟩

end Sys2Proof.Machine
end


-- ==== Sys2Proof/Proofs/Diffusion.lean ====
section
/-! PROOFS. A diffusion step is the product with a matrix over GF(2) on each bit plane of the state (R78, R79, R84,
R85), so its laws (R80 to R82) are those of matrices over the two-element ring. -/

namespace Sys2Proof.Machine

open Matrix

/-! ### One diffusion step (R78, R79) -/

/-- Bit k of an output word comes from the bits k of the input words alone. -/
theorem mixVec_getLsbD {n j : Nat} (m v : List Word) (hj : j < n) (k : Nat) :
    (wordAt (mixVec n m v) j).getLsbD k = bitSum n fun i => matEntry m j i && (wordAt v i).getLsbD k := by
  rw [wordAt_mixVec m v hj, xorSum_getLsbD]
  exact bitSum_congr fun i _ => by cases matEntry m j i <;> simp

/-- A command whose effect is the diffusion step of a direction multiplies by that matrix and completes. -/
theorem exec_mixes {c : Command} {b : Dir} {s : State} (hc : isRun c = false)
    (diffusion : effectOf c = State.mixLayer b) (ready : s.eng = .idle ∨ ∃ k p, s.eng = .busy c k p) :
    ∃ w : List Word, exec c.toInstr s = .next { s with st := w, done := true, eng := .idle } ∧ w.length = s.n ∧
      ∀ j k, j < s.n → (wordAt w j).getLsbD k =
        bitSum s.n fun i => matEntry (Config.matrix s.cfg b) j i && (wordAt s.st i).getLsbD k := by
  rw [exec_of_not_run hc ready, diffusion]
  exact ⟨_, rfl, mixVec_length _ _ _, fun _ k hj => mixVec_getLsbD _ _ hj k⟩

/-- Settles O37: MIX.F is the diffusion step with MATF, completed. -/
theorem mixForwardIsTheMatrixProduct : Obligations.MixForwardIsTheMatrixProduct :=
  ⟨by decide, fun _ => exec_mixes (c := .mixF) (b := .forward) rfl rfl⟩

/-- Settles O38: MIX.I is the diffusion step with MATI, completed. -/
theorem mixInverseIsTheMatrixProduct : Obligations.MixInverseIsTheMatrixProduct :=
  ⟨by decide, fun _ => exec_mixes (c := .mixI) (b := .inverse) rfl rfl⟩

/-! ### Linearity (R80) -/

theorem xorSum_eq_zero {n : Nat} {f : Nat → Word} (h : ∀ i, i < n → f i = 0) : xorSum n f = 0 :=
  (xorSum_congr h).trans (xorSum_zero n)

theorem wordAt_mixVec_xor {n j : Nat} (m u v : List Word) (hj : j < n) :
    wordAt (mixVec n m (tabulate n fun i => wordAt u i ^^^ wordAt v i)) j
      = wordAt (mixVec n m u) j ^^^ wordAt (mixVec n m v) j := by
  rw [wordAt_mixVec _ _ hj, wordAt_mixVec _ _ hj, wordAt_mixVec _ _ hj, ← xorSum_xor]
  refine xorSum_congr fun i hi => ?_
  rw [wordAt_tabulate _ hi]
  cases matEntry m j i <;> simp

theorem mixVec_zero (n : Nat) (m : List Word) : mixVec n m (List.replicate n 0) = List.replicate n 0 := by
  refine vec_ext (mixVec_length _ _ _) List.length_replicate fun j hj => ?_
  rw [wordAt_mixVec _ _ hj, wordAt_replicate]
  exact xorSum_eq_zero fun i _ => by rw [wordAt_replicate, ite_self]

/-- Settles O45: the two laws above, with composition and identity from the laws of vectors. -/
theorem diffusionIsLinear : Obligations.DiffusionIsLinear := by
  refine fun n a b c u v _ hv => ⟨fun j hj => wordAt_mixVec_xor a u v hj, fun j => ?_, mixVec_mixVec v,
    mixVec_identity hv⟩
  rw [mixVec_zero, wordAt_replicate]

/-! ### Matrices and bit planes over the ring of two elements -/

/-- The entries that count for n words, as a matrix over GF(2): `Bool` with XOR and AND. -/
def bitMatrix (n : Nat) (m : List Word) : Matrix (Fin n) (Fin n) Bool := .of fun j i => matEntry m j i

/-- Bit k of each of n words. -/
def bitPlane (n : Nat) (v : List Word) (k : Nat) : Fin n → Bool := fun i => (wordAt v i).getLsbD k

theorem bitSum_eq_sum (n : Nat) (p : Nat → Bool) : bitSum n p = ∑ i : Fin n, p i := by
  induction n with
  | zero => rfl
  | succ n ih => rw [Fin.sum_univ_castSucc, bitSum, ih]; rfl

theorem bitMatrix_mul_apply (n : Nat) (a b : List Word) (j i : Fin n) :
    (bitMatrix n a * bitMatrix n b) j i = bitSum n fun k => matEntry a j k && matEntry b k i := by
  rw [bitSum_eq_sum]
  rfl

/-- The obligations' words for "the product is I", as an equation between matrices. -/
theorem bitMatrix_mul_eq_one_iff (n : Nat) (a b : List Word) :
    bitMatrix n a * bitMatrix n b = 1 ↔
      ∀ j, j < n → ∀ i, i < n → (bitSum n fun k => matEntry a j k && matEntry b k i) = decide (j = i) := by
  have entry (j i : Fin n) : (1 : Matrix (Fin n) (Fin n) Bool) j i = decide (j.val = i.val) := by
    rw [Matrix.one_apply]
    by_cases h : j = i
    · simp [h, Bool.one_eq_true]
    · simp [h, Fin.val_ne_of_ne h, Bool.zero_eq_false]
  constructor
  · intro h j hj i hi
    rw [← bitMatrix_mul_apply n a b ⟨j, hj⟩ ⟨i, hi⟩, h, entry]
  · intro h
    ext j i
    rw [bitMatrix_mul_apply, h j j.isLt i i.isLt, entry]

/-- A diffusion step multiplies each bit plane by the matrix (R79). -/
theorem bitPlane_mixVec (n : Nat) (m v : List Word) (k : Nat) :
    bitPlane n (mixVec n m v) k = bitMatrix n m *ᵥ bitPlane n v k := by
  ext j
  rw [bitPlane, mixVec_getLsbD m v j.isLt, bitSum_eq_sum]
  rfl

theorem eq_of_bitPlane_eq {n : Nat} {v w : List Word} (hv : v.length = n) (hw : w.length = n)
    (h : ∀ k, bitPlane n v k = bitPlane n w k) : v = w :=
  vec_ext hv hw fun j hj => BitVec.eq_of_getLsbD_eq fun k _ => congrFun (h k) ⟨j, hj⟩

/-! ### Inverse matrices (R81) -/

theorem mixVec_mixVec_of_inverse {n : Nat} {f g v : List Word} (hv : v.length = n)
    (inverse : bitMatrix n g * bitMatrix n f = 1) : mixVec n g (mixVec n f v) = v :=
  eq_of_bitPlane_eq (mixVec_length _ _ _) hv fun k => by
    rw [bitPlane_mixVec, bitPlane_mixVec, mulVec_mulVec, inverse, one_mulVec]

/-- Settles O46: a left inverse of a square matrix over a commutative ring is a right inverse too. -/
theorem inverseMatrixUndoesDiffusion : Obligations.InverseMatrixUndoesDiffusion := by
  intro n f g _ h
  have left : bitMatrix n g * bitMatrix n f = 1 := (bitMatrix_mul_eq_one_iff n g f).2 h
  have right : bitMatrix n f * bitMatrix n g = 1 := mul_eq_one_comm.1 left
  exact ⟨(bitMatrix_mul_eq_one_iff n f g).1 right, fun _ hv =>
    ⟨mixVec_mixVec_of_inverse hv left, mixVec_mixVec_of_inverse hv right⟩⟩

/-! ### Singular matrices (R82) -/

/-- The list of rows that holds a matrix over GF(2). -/
def packMatrix {n : Nat} (a : Matrix (Fin n) (Fin n) Bool) : List Word :=
  List.ofFn fun j => (BitVec.ofFnLE (a j)).setWidth 16

/-- The state whose words are 0 and 1, as the bits say. -/
def planeToWords {n : Nat} (x : Fin n → Bool) : List Word := List.ofFn fun i => if x i then 1 else 0

theorem wordAt_ofFn {n : Nat} (f : Fin n → Word) (j : Fin n) : wordAt (List.ofFn f) j = f j := by
  simp [wordAt]

theorem bitMatrix_packMatrix {n : Nat} (hn : n ≤ 16) (a : Matrix (Fin n) (Fin n) Bool) :
    bitMatrix n (packMatrix a) = a := by
  ext j i
  have hi : i.val < 16 := by omega
  simp [bitMatrix, matEntry, packMatrix, wordAt_ofFn, BitVec.getLsbD_setWidth, hi]

theorem bitPlane_planeToWords {n : Nat} (x : Fin n → Bool) (k : Nat) :
    bitPlane n (planeToWords x) k = if k = 0 then x else 0 := by
  ext i
  rw [bitPlane, planeToWords, wordAt_ofFn]
  by_cases hk : k = 0 <;> cases hx : x i <;> simp [hk, hx, Bool.zero_eq_false]

/-- Two bits multiply to 0 only if one of them is 0. -/
theorem bool_isDomain : IsDomain Bool :=
  have : NoZeroDivisors Bool := ⟨by decide⟩
  NoZeroDivisors.to_isDomain Bool

/-- Over GF(2) a square matrix has a left inverse or sends a nonzero vector to zero. -/
theorem exists_left_inverse_or_kernel {n : Nat} (a : Matrix (Fin n) (Fin n) Bool) :
    (∃ b, b * a = 1) ∨ ∃ x, x ≠ 0 ∧ a *ᵥ x = 0 := by
  have := bool_isDomain
  cases hdet : a.det with
  | true => exact .inl ⟨a⁻¹, nonsing_inv_mul a (hdet ▸ isUnit_one)⟩
  | false => exact .inr (exists_mulVec_eq_zero_iff.2 hdet)

/-- A nonzero vector that a matrix sends to zero is a state that collides with the zero state. -/
theorem mixVec_collision {n : Nat} {m : List Word} {x : Fin n → Bool} (nonzero : x ≠ 0)
    (kernel : bitMatrix n m *ᵥ x = 0) :
    ∃ v w : List Word, v.length = n ∧ w.length = n ∧ v ≠ w ∧ mixVec n m v = mixVec n m w := by
  have length (y : Fin n → Bool) : (planeToWords y).length = n := List.length_ofFn
  refine ⟨planeToWords x, planeToWords 0, length x, length 0, fun same => nonzero ?_,
    eq_of_bitPlane_eq (mixVec_length _ _ _) (mixVec_length _ _ _) fun k => ?_⟩
  · simpa [bitPlane_planeToWords] using congrArg (bitPlane n · 0) same
  · rw [bitPlane_mixVec, bitPlane_mixVec, bitPlane_planeToWords, bitPlane_planeToWords]
    by_cases hk : k = 0
    · simp [hk, kernel]
    · simp [hk]

theorem wordAt_mixVec_of_zero_row {n j : Nat} {m : List Word} (v : List Word) (hj : j < n)
    (row : ∀ i, i < n → matEntry m j i = false) : wordAt (mixVec n m v) j = 0 := by
  rw [wordAt_mixVec _ _ hj]
  exact xorSum_eq_zero fun i hi => by simp [row i hi]

theorem mixVec_set_of_zero_column {n i : Nat} {m : List Word} (x : Word) (v : List Word)
    (column : ∀ j, j < n → matEntry m j i = false) : mixVec n m (v.set i x) = mixVec n m v := by
  refine vec_ext (mixVec_length _ _ _) (mixVec_length _ _ _) fun j hj => ?_
  rw [wordAt_mixVec _ _ hj, wordAt_mixVec _ _ hj]
  refine xorSum_congr fun k _ => ?_
  by_cases hk : k = i
  · simp [hk, column j hj]
  · rw [wordAt_set_of_ne x hk]

/-- Settles O47: no left inverse leaves a nonzero vector in the kernel. -/
theorem singularMatrixCollides : Obligations.SingularMatrixCollides := by
  refine fun n m hn => ⟨fun singular => ?_, fun _ v => wordAt_mixVec_of_zero_row v,
    fun _ => mixVec_set_of_zero_column⟩
  rcases exists_left_inverse_or_kernel (bitMatrix n m) with ⟨b, inverse⟩ | ⟨x, nonzero, kernel⟩
  · rw [← bitMatrix_packMatrix hn b, bitMatrix_mul_eq_one_iff] at inverse
    exact absurd ⟨packMatrix b, inverse⟩ singular
  · exact mixVec_collision nonzero kernel

end Sys2Proof.Machine
end


-- ==== Sys2Proof/Proofs/CommandAcceptance.lean ====
section
/-! PROOFS. A CMD write is refused or accepts a command (R86): what a command issued to an Idle and to a Busy engine
meets, NOP and CLRST from their word to their completion (R96, R97). -/

namespace Sys2Proof.Machine

/-! ### The CMD write (R86) -/

/-- The acceptance of a decoded word, whatever ERR is. -/
theorem State.writeCmd_of_ok {v : BusWord} {c : Command} {s : State} (hv : decodeCommand v = .ok c)
    (hs : s.eng = .idle) : s.writeCmd v = s.accept c := by
  simp [State.writeCmd, State.isBusy_of_idle hs, hv]

/-- Settles O28: the three outcomes of a CMD write, in the order of the rule. -/
theorem commandAcceptance : Obligations.CommandAcceptance := by
  refine fun s v => ⟨fun busy => ?_, fun idle bad => ?_, fun c idle ok => ?_⟩ <;> rw [exec_wr_cmd]
  · rw [State.writeCmd_of_busy (State.isBusy_of_not_idle busy)]
    rfl
  · rw [State.writeCmd_of_badcmd bad idle]
    rfl
  · rw [State.writeCmd_of_ok ok idle]
    rfl

/-- Settles O31: with another command running, both are the refusal with BUSY. -/
theorem commandWhileAnotherRunsIsRefused : Obligations.CommandWhileAnotherRunsIsRefused := by
  intro s c c' k p running other
  have refused : exec c.toInstr s = .next (s.raise .busy).acked := by
    rw [exec_toInstr, State.command_of_other _ running other]
  refine ⟨?_, refused⟩
  rw [refused, exec_wr_cmd, State.writeCmd_of_busy (State.isBusy_of_busy running)]

/-! ### NOP and CLRST (R96, R97) -/

/-- The CMD write of a command that is no RUN: acceptance leaves RCNT alone. -/
theorem exec_wr_cmd_of_not_run {v : BusWord} {c : Command} (hv : decodeCommand v = .ok c) (hc : isRun c = false)
    (s : State) :
    (s.eng = .idle → exec (.wr 0x03 v) s =
      .next { s with done := false, eng := .busy c 0 .first, ack := true }) ∧
    (s.eng ≠ .idle → exec (.wr 0x03 v) s =
      .next { s with err := true, errCode := if s.err then s.errCode else .busy, ack := true }) := by
  obtain ⟨busy, _, accepted⟩ := commandAcceptance s v
  refine ⟨fun idle => ?_, busy⟩
  rw [accepted c idle hv, hc]
  rfl

/-- Settles O33: a command without effect that is no RUN. -/
theorem nopOnlySetsDone : Obligations.NopOnlySetsDone :=
  ⟨by decide, by decide, fun s => ⟨exec_of_not_run (c := .nop) rfl,
    exec_wr_cmd_of_not_run (c := .nop) (by decide) rfl s⟩⟩

/-- Settles O34: a command that is no RUN and leaves N zero words. -/
theorem clrstClearsEveryWord : Obligations.ClrstClearsEveryWord :=
  ⟨by decide, by decide, fun s => ⟨fun ready => ⟨List.replicate s.n 0, exec_of_not_run (c := .clrst) rfl ready,
    List.length_replicate, wordAt_replicate s.n⟩, exec_wr_cmd_of_not_run (c := .clrst) (by decide) rfl s⟩⟩

/-! ### Both orders of a completion and the next CMD write (hazard H1) -/

/-- A command as the host issues it is the CMD write of its encoding (R51). -/
theorem onEvent_issue (c : Command) (s : State) :
    onEvent (issue c.toInstr) s = .next (s.writeCmd (encodeCommand c)).acked := by
  simp only [issue, onEvent, hostTransaction_toInstr, issueCommand, decodeTransaction_pack_write]
  rfl

theorem State.after_issue (c : Command) (es : List Event) (s : State) :
    s.after (issue c.toInstr :: es) = ((s.popEvent []).writeCmd (encodeCommand c)).acked.after es := by
  simp only [State.after, onEvent_issue]

theorem State.after_issue_of_idle {c : Command} (hc : c.WellFormed) {s : State} (hs : s.eng = .idle)
    (es : List Event) : s.after (issue c.toInstr :: es) = ((s.popEvent []).accept c).acked.after es := by
  rw [State.after_issue, State.writeCmd_of_ok (decodeCommand_encodeCommand hc) (s := s.popEvent []) hs]

theorem State.after_issue_of_busy (c : Command) {s : State} (hs : s.isBusy = true) (es : List Event) :
    s.after (issue c.toInstr :: es) = ((s.popEvent []).raise .busy).acked.after es := by
  rw [State.after_issue, State.writeCmd_of_busy (s := s.popEvent []) hs]

theorem State.after_complete_of_busy {c : Command} {k : Nat} {p : Phase} {s : State} (hs : s.eng = .busy c k p)
    (es : List Event) : s.after (.complete :: es) = (effectOf c (s.popEvent [])).finish.after es := by
  have popped : (s.popEvent []).eng = .busy c k p := hs
  simp only [State.after, onEvent, engineCompletes_of_busy popped, exec_running popped]

/-- A command issued right after another one is refused. -/
theorem State.after_issue_twice {c c' : Command} (hc : c.WellFormed) {s : State} (hs : s.eng = .idle) :
    s.after [issue c.toInstr, issue c'.toInstr] =
      ((((s.popEvent []).accept c).acked.popEvent []).raise .busy).acked := by
  rw [State.after_issue_of_idle hc hs, State.after_issue_of_busy c' rfl, State.after]

/-- A command issued after the completion of another one is accepted. -/
theorem State.after_issue_complete_issue {c c' : Command} (hc : c.WellFormed) (hc' : c'.WellFormed) {s : State}
    (hs : s.eng = .idle) :
    s.after [issue c.toInstr, .complete, issue c'.toInstr] =
      (((effectOf c (((s.popEvent []).accept c).acked.popEvent [])).finish.popEvent []).accept c').acked := by
  rw [State.after_issue_of_idle hc hs, State.after_complete_of_busy (c := c) rfl, State.after_issue_of_idle hc' rfl,
    State.after]

/-- Settles O60: the NOP finds RUN.F #1 running and is refused, or finds the engine Idle and is accepted. -/
theorem bothOrdersOfCompletionAreAdmitted : Obligations.BothOrdersOfCompletionAreAdmitted := by
  intro s hr idle noErr
  have nopFirst : s.after [issue (.runF 1), issue .nop] = _ :=
    State.after_issue_twice (c := .runF 1) (c' := .nop) rfl idle
  have nopLast : s.after [issue (.runF 1), .complete, issue .nop] = _ :=
    State.after_issue_complete_issue (c := .runF 1) (c' := .nop) rfl rfl idle
  refine ⟨⟨_, run_after (es := [issue (.runF 1), issue .nop]) hr (by simp [issue, isOrdinary]), ?_⟩,
    ⟨_, run_after (es := [issue (.runF 1), .complete, issue .nop]) hr (by simp [issue, isOrdinary]), ?_⟩⟩
  · rw [nopFirst]
    simp [noErr, State.isBusy]
  · rw [nopLast]
    simp [effectOf_frame, noErr]

end Sys2Proof.Machine
end


-- ==== Sys2Proof/Proofs/CommandCompletion.lean ====
section
/-! PROOFS. The completion of a running command (R87, R88): what it changes, that neither earlier progress nor the way
the command was issued changes the result, and that it comes. -/

namespace Sys2Proof.Machine

/-! ### What a completion changes (R87) -/

/-- The frame of every effect, as one update of the state. -/
theorem effectOf_eq (c : Command) (s : State) :
    effectOf c s =
      { s with st := (effectOf c s).st, rcnt := (effectOf c s).rcnt, eng := (effectOf c s).eng,
               mixed := (effectOf c s).mixed, draws := (effectOf c s).draws } := by
  have frame := effectOf_frame c s
  generalize effectOf c s = u at frame ⊢
  cases u
  cases s
  simpa using frame

theorem effectOf_rcnt_of_not_run {c : Command} (hc : isRun c = false) (s : State) :
    (effectOf c s).rcnt = s.rcnt := by
  cases c with
  | runF r => cases hc
  | runI r => cases hc
  | _ => rfl

/-- Progress uses up the half-rounds that are left, one by one. -/
theorem State.halvesLeft_advanceBy (m : Nat) (s : State) : (s.advanceBy m).halvesLeft = s.halvesLeft - m := by
  induction m generalizing s with
  | zero => rfl
  | succ m ih =>
    rw [State.advanceBy, ih]
    rcases s.halvesLeft_advance with ⟨none, same⟩ | one
    · rw [same]
      omega
    · omega

theorem State.halvesLeft_allRounds (s : State) : s.allRounds.halvesLeft = 0 := by
  rw [State.allRounds, State.halvesLeft_advanceBy, Nat.sub_self]

theorem State.advanceBy_eng {s : State} {c : Command} {k : Nat} {p : Phase} (m : Nat) (h : s.eng = .busy c k p) :
    ∃ k' p', (s.advanceBy m).eng = .busy c k' p' := by
  induction m generalizing s k p with
  | zero => exact ⟨k, p, h⟩
  | succ m ih =>
    obtain ⟨_, _, h'⟩ := State.advance_eng h
    exact ih h'

/-- A RUN #r in progress has no half-round left only when all its rounds are completed. -/
theorem State.Runs.completed {s : State} {r k : Nat} {p : Phase} (h : s.Runs r k p) (left : s.halvesLeft = 0) :
    r ≤ k := by
  have halves : halvesOf r k p = 0 := by
    rcases h with h | h <;> simpa only [State.halvesLeft, h] using left
  cases p <;> simp only [halvesOf] at halves <;> omega

/-- A RUN #r that has gone through all its rounds has counted `r` of them. -/
theorem State.Inv.allRounds_rcnt {s : State} (hi : s.Inv) {r k : Nat} {p : Phase} (h : s.Runs r k p) :
    s.allRounds.rcnt.toNat = r := by
  have still : ∃ k' p', s.allRounds.Runs r k' p' := by
    rcases h with h | h <;> obtain ⟨k', p', h'⟩ := State.advanceBy_eng s.halvesLeft h
    · exact ⟨k', p', .inl h'⟩
    · exact ⟨k', p', .inr h'⟩
  obtain ⟨k', p', runs⟩ := still
  obtain ⟨counted, atMost, _⟩ := (hi.advanceBy s.halvesLeft).rcnt_toNat runs
  have all := runs.completed s.halvesLeft_allRounds
  exact counted.trans (by omega)

/-- Settles O29: the frame of the effect, and the count of a RUN that has no rounds left. -/
theorem runningCommandCompletes : Obligations.RunningCommandCompletes := by
  intro s c k p running
  refine ⟨(effectOf c s).finish, exec_running running, congrArg State.finish (effectOf_eq c s),
    fun a => ?_, fun noF noI => ?_, fun hi r run => ?_⟩
  · simp [effectOf_frame]
  · refine effectOf_rcnt_of_not_run ?_ s
    cases c with
    | runF r => exact absurd rfl (noF r)
    | runI r => exact absurd rfl (noI r)
    | _ => rfl
  · rcases run with rfl | rfl
    · exact hi.allRounds_rcnt (.inl running)
    · exact hi.allRounds_rcnt (.inr running)

/-! ### Progress before completion (R88) -/

theorem State.allRounds_advanceBy (m : Nat) (s : State) : (s.advanceBy m).allRounds = s.allRounds := by
  induction m generalizing s with
  | zero => rfl
  | succ m ih => exact (ih s.advance).trans s.allRounds_advance

/-- A command that is no RUN makes no progress before its completion. -/
theorem State.advanceBy_of_not_run {s : State} {c : Command} {k : Nat} {p : Phase} (hc : isRun c = false)
    (h : s.eng = .busy c k p) (m : Nat) : s.advanceBy m = s := by
  have still : s.advance = s := by
    rcases s.advance_cases with e | ⟨r, _, _, h', _, _⟩ | ⟨r, _, _, h', _, _⟩
    · exact e
    · rw [h] at h'; cases h'; cases hc
    · rw [h] at h'; cases h'; cases hc
  induction m with
  | zero => rfl
  | succ m ih => rw [State.advanceBy, still, ih]

theorem effectOf_advanceBy {s : State} {c : Command} {k : Nat} {p : Phase} (h : s.eng = .busy c k p) (m : Nat) :
    effectOf c (s.advanceBy m) = effectOf c s := by
  cases hc : isRun c with
  | false => rw [State.advanceBy_of_not_run hc h]
  | true =>
    cases c with
    | runF r => exact State.allRounds_advanceBy m s
    | runI r => exact State.allRounds_advanceBy m s
    | _ => cases hc

/-- Settles O32: the command still runs after the progress, and its effect is the same. -/
theorem progressDoesNotChangeTheResult : Obligations.ProgressDoesNotChangeTheResult := by
  intro s c k m p running
  obtain ⟨_, _, still⟩ := State.advanceBy_eng m running
  rw [exec_running still, exec_running running, effectOf_advanceBy running]

/-! ### Issued and left to complete (R86, R87; log entry 8) -/

theorem State.advance_acked (s : State) : s.acked.advance = s.advance.acked := by
  unfold State.advance
  rw [State.acked_eng]
  split
  · next r k p _ => split <;> cases p <;> rfl
  · next r k p _ => split <;> cases p <;> rfl
  · rfl

theorem State.advanceBy_acked (m : Nat) (s : State) : s.acked.advanceBy m = (s.advanceBy m).acked := by
  induction m generalizing s with
  | zero => rfl
  | succ m ih => rw [State.advanceBy, State.advance_acked, ih, State.advanceBy]

/-- A command does the same whether or not the last step was a transaction. -/
theorem effectOf_acked (c : Command) (s : State) : effectOf c s.acked = (effectOf c s).acked := by
  cases c with
  | runF r => exact State.advanceBy_acked _ s
  | runI r => exact State.advanceBy_acked _ s
  | _ => rfl

/-- Settles O30: acceptance by the write, then the effect on the accepted state, as in the command as a whole. -/
theorem issuedCommandCompletesAsTheCommand : Obligations.IssuedCommandCompletesAsTheCommand := by
  intro s c idle hc
  refine ⟨(s.accept c).acked, (effectOf c (s.accept c).acked).finish, (effectOf c (s.accept c)).finish, ?_, rfl,
    exec_running (c := c) rfl, exec_idle c idle, ?_⟩
  · rw [exec_wr_cmd, State.writeCmd_of_ok (decodeCommand_encodeCommand hc) idle]
  · rw [effectOf_acked]
    rfl

/-! ### A completion comes (R87, R88; log entry 6) -/

theorem run_succ_of_step {s t : State} (h : step s = .next t) (k : Nat) :
    Sys2Proof.core.run (k + 1) s = Sys2Proof.core.run k t := by
  have hstep : Sys2Proof.core.step s = .next t := h
  simp only [Host.Core.run, hstep]

/-- The ordinary events take place, and then the running command completes. -/
theorem State.Ordinary.run_to_idle {s : State} (h : s.Ordinary) :
    ∃ t, Sys2Proof.core.run (s.events.length + 1) s = .next t ∧ t.eng = .idle := by
  obtain ⟨hr, ho⟩ := h
  generalize he : s.events = es at ho ⊢
  induction es generalizing s with
  | nil =>
    obtain ⟨t, ht, _⟩ := onEvent_ordinary (e := .complete) (s.popEvent []) rfl
    exact ⟨t, run_succ_of_step ((step_no_event hr he).trans ht) 0, engineCompletes_idle ht⟩
  | cons e es ih =>
    obtain ⟨t, ht, hevents, hreset, _⟩ := onEvent_ordinary (s.popEvent es) (ho e List.mem_cons_self)
    obtain ⟨u, hu, idle⟩ := ih (hreset.trans hr) hevents fun e' he' => ho e' (List.mem_cons_of_mem e he')
    exact ⟨u, (run_succ_of_step ((step_event hr he).trans ht) _).trans hu, idle⟩

/-- Settles O54: the run through every event and one step more ends Idle. -/
theorem everyCommandCompletes : Obligations.EveryCommandCompletes := by
  intro s hr _ ho
  obtain ⟨t, ht, idle⟩ := State.Ordinary.run_to_idle ⟨hr, ho⟩
  exact ⟨s.events.length + 1, t, Nat.le_refl _, ht, State.isBusy_of_idle idle⟩

end Sys2Proof.Machine
end


-- ==== Sys2Proof/Proofs/RoundControl.lean ====
section
/-! PROOFS. RUN is the round function iterated (R89 to R91), whence the laws of rounds: no rounds (R92), composition
(R93), one round as two layers (R94), inverse rounds (R95). The two directions share one argument: below, `b` is the
direction of a RUN. -/

namespace Sys2Proof.Machine

/-! ### Both directions at once -/

/-- RUN.F #r or RUN.I #r. -/
def runOf : Dir → Nat → Command
  | .forward => .runF
  | .inverse => .runI

/-- RoundF or RoundI of R89. -/
def roundOf : Dir → Config → Memory → Nat → List Word → List Word
  | .forward => roundF
  | .inverse => roundI

/-- RoundF or RoundI, iterated. -/
def roundsOf : Dir → Config → Memory → Nat → Nat → List Word → List Word
  | .forward => roundsF
  | .inverse => roundsI

theorem roundsOf_zero (b : Dir) (c : Config) (tbl : Memory) (d : Nat) (v : List Word) :
    roundsOf b c tbl 0 d v = v := by
  cases b <;> rfl

theorem roundsOf_succ (b : Dir) (c : Config) (tbl : Memory) (r d : Nat) (v : List Word) :
    roundsOf b c tbl (r + 1) d v = roundsOf b c tbl r (d + c.n) (roundOf b c tbl d v) := by
  cases b <;> rfl

theorem roundsOf_add (b : Dir) (c : Config) (tbl : Memory) (r q d : Nat) (v : List Word) :
    roundsOf b c tbl (r + q) d v = roundsOf b c tbl q (d + r * c.n) (roundsOf b c tbl r d v) := by
  cases b
  · exact roundsF_add c tbl r q d v
  · exact roundsI_add c tbl r q d v

/-- The last round, split off. -/
theorem roundsOf_succ_last (b : Dir) (c : Config) (tbl : Memory) (r d : Nat) (v : List Word) :
    roundsOf b c tbl (r + 1) d v = roundOf b c tbl (d + r * c.n) (roundsOf b c tbl r d v) := by
  rw [roundsOf_add, roundsOf_succ, roundsOf_zero]

theorem roundOf_length (b : Dir) (c : Config) (tbl : Memory) (d : Nat) (v : List Word) :
    (roundOf b c tbl d v).length = c.n := by
  cases b
  · exact mixVec_length _ _ _
  · exact subVec_length _ _ _ _ _

/-! ### A RUN as a whole (R90, R91) -/

/-- The state in which RUN #r of direction `b` ends when it starts in `s`, with what is left in MIXED. -/
def State.ran (b : Dir) (r : Nat) (mixed : List Word) (s : State) : State :=
  { s with st := roundsOf b s.cfg s.tbl r s.draws s.st, mixed := mixed, draws := s.draws + r * s.n,
           rcnt := BitVec.ofNat 16 r, done := true, eng := .idle }

theorem effectOf_runOf (b : Dir) (r : Nat) (s : State) : effectOf (runOf b r) s = s.allRounds := by
  cases b <;> rfl

section
variable {b : Dir} {r : Nat} {s : State} (start : s.eng = .busy (runOf b r) 0 .first)
include start

theorem State.halvesLeft_of_start : s.halvesLeft = 2 * r := by
  cases b <;> simp [State.halvesLeft, start, runOf, halvesOf]

theorem State.advanceBy_of_start : ∃ mixed, s.advanceBy (2 * r) =
    { s with st := roundsOf b s.cfg s.tbl r s.draws s.st, mixed := mixed, draws := s.draws + r * s.n,
             rcnt := s.rcnt + BitVec.ofNat 16 r, eng := .busy (runOf b r) (0 + r) .first } := by
  have all : 0 + r ≤ r := by omega
  cases b with
  | forward => exact State.advanceBy_runF start all
  | inverse => exact State.advanceBy_runI start all

/-- The 2r half-rounds from the start of the command, and its completion. -/
theorem State.ran_of_start (zero : s.rcnt = 0) : ∃ mixed, (effectOf (runOf b r) s).finish = s.ran b r mixed := by
  obtain ⟨mixed, e⟩ := State.advanceBy_of_start start
  refine ⟨mixed, ?_⟩
  rw [effectOf_runOf, State.allRounds, State.halvesLeft_of_start start, e, zero, zero_add]
  rfl

end

/-- RUN #r can go through all its rounds from here: the engine is Idle or has just accepted it. -/
def State.ReadyToRun (b : Dir) (r : Nat) (s : State) : Prop :=
  s.eng = .idle ∨ (s.eng = .busy (runOf b r) 0 .first ∧ s.rcnt = 0)

theorem exec_runOf {b : Dir} {r : Nat} {s : State} (ready : s.ReadyToRun b r) :
    ∃ mixed, exec (runOf b r).toInstr s = .next (s.ran b r mixed) := by
  rcases ready with idle | ⟨start, zero⟩
  · have cleared : (s.accept (runOf b r)).rcnt = 0 := by cases b <;> rfl
    obtain ⟨mixed, e⟩ := State.ran_of_start (s := s.accept (runOf b r)) rfl cleared
    exact ⟨mixed, by rw [exec_idle _ idle, e]; rfl⟩
  · obtain ⟨mixed, e⟩ := State.ran_of_start start zero
    exact ⟨mixed, by rw [exec_running start, e]⟩

/-- The number IMM * 65536 + low, as the pair of R49 reads it. -/
theorem runWord_mask {r low : Nat} (hr : r ≤ 65535) (hlow : low < 65536) :
    BitVec.ofNat 32 (r * 65536 + low) &&& 0x0000FFFF = BitVec.ofNat 32 low ∧
      r = (BitVec.ofNat 32 (r * 65536 + low)).toNat / 65536 := by
  rw [and_lowMask_eq_iff, BitVec.toNat_ofNat, BitVec.toNat_ofNat]
  omega

/-- Settles O39: the half-rounds of RUN.F add up to RoundF iterated. -/
theorem runForwardIsTheRoundIterated : Obligations.RunForwardIsTheRoundIterated := by
  refine ⟨fun r hr => decodeCommand_runF_iff.2 (runWord_mask hr (by decide)), fun s r _ ready => ?_⟩
  obtain ⟨mixed, e⟩ := exec_runOf (b := .forward) ready
  exact ⟨mixed, _, e⟩

/-- Settles O40: the half-rounds of RUN.I add up to RoundI iterated. -/
theorem runInverseIsTheRoundIterated : Obligations.RunInverseIsTheRoundIterated := by
  refine ⟨fun r hr => decodeCommand_runI_iff.2 (runWord_mask hr (by decide)), fun s r _ ready => ?_⟩
  obtain ⟨mixed, e⟩ := exec_runOf (b := .inverse) ready
  exact ⟨mixed, _, e⟩

/-! ### No rounds (R92) -/

/-- Settles O41: no half-round is left from the start, so nothing but the acceptance and the completion happens. -/
theorem runOfNoRoundsIsTheIdentity : Obligations.RunOfNoRoundsIsTheIdentity := by
  intro s idle
  have same : ({ s with rcnt := 0, done := true } : State) = { s with rcnt := 0, done := true, eng := .idle } := by
    rw [← idle]
  rw [same]
  exact ⟨exec_idle (.runF 0) idle, exec_idle (.runI 0) idle⟩

/-! ### Composition (R93) -/

theorem rcnt_toNat_of_le {r : Nat} (hr : r ≤ 65535) : (BitVec.ofNat 16 r).toNat = r :=
  Nat.mod_eq_of_lt (Nat.lt_succ_of_le hr)

theorem runOf_compose (b : Dir) {s : State} {r q : Nat} (hrq : r + q ≤ 65535) (idle : s.eng = .idle) :
    ∃ t u v, exec (runOf b r).toInstr s = .next t ∧ exec (runOf b q).toInstr t = .next u ∧
      exec (runOf b (r + q)).toInstr s = .next v ∧ u.st = v.st ∧ u.rcnt.toNat = q ∧ v.rcnt.toNat = r + q := by
  obtain ⟨_, first⟩ := exec_runOf (b := b) (r := r) (.inl idle)
  obtain ⟨_, second⟩ := exec_runOf (b := b) (r := q) (s := s.ran b r _) (.inl rfl)
  obtain ⟨_, whole⟩ := exec_runOf (b := b) (r := r + q) (.inl idle)
  exact ⟨_, _, _, first, second, whole, (roundsOf_add b s.cfg s.tbl r q s.draws s.st).symm,
    rcnt_toNat_of_le (by omega), rcnt_toNat_of_le hrq⟩

/-- Settles O42: the second RUN takes its draws where the first has left off. -/
theorem roundsCompose : Obligations.RoundsCompose :=
  fun _ _ _ hab idle => ⟨runOf_compose .forward hab idle, runOf_compose .inverse hab idle⟩

/-! ### One round as two layers (R94) -/

/-- Two commands other than RUN, one after the other, whose effects make one round. -/
theorem layers_make_a_round (b : Dir) {c c' : Command} (hc : isRun c = false) (hc' : isRun c' = false) {s : State}
    (idle : s.eng = .idle)
    (layers : (effectOf c' (effectOf c s).finish).st = roundOf b s.cfg s.tbl s.draws s.st) :
    ∃ t u v, exec c.toInstr s = .next t ∧ exec c'.toInstr t = .next u ∧ exec (runOf b 1).toInstr s = .next v ∧
      u.st = v.st ∧ u.rcnt = s.rcnt := by
  obtain ⟨_, run⟩ := exec_runOf (b := b) (r := 1) (.inl idle)
  refine ⟨_, _, _, exec_of_not_run hc (.inl idle), exec_of_not_run hc' (.inl rfl), run, ?_, ?_⟩
  · rw [State.finish_st, layers]
    exact ((roundsOf_succ b s.cfg s.tbl 0 s.draws s.st).trans (roundsOf_zero ..)).symm
  · rw [State.finish_rcnt, effectOf_rcnt_of_not_run hc', State.finish_rcnt, effectOf_rcnt_of_not_run hc]

/-- Settles O43: confusion then diffusion, and diffusion then confusion. -/
theorem layersMakeARound : Obligations.LayersMakeARound :=
  fun _ idle => ⟨layers_make_a_round .forward (c := .subF) (c' := .mixF) rfl rfl idle rfl,
    layers_make_a_round .inverse (c := .mixI) (c' := .subI) rfl rfl idle rfl⟩

/-! ### Inverse rounds (R95) -/

/-- The round of direction `b'` undoes the round of direction `b`, whatever draws the two take. -/
def RoundUndoes (c : Config) (tbl : Memory) (b b' : Dir) : Prop :=
  ∀ d e v, v.length = c.n → roundOf b' c tbl e (roundOf b c tbl d v) = v

/-- The first of the rounds is undone by the last of the inverse rounds. -/
theorem RoundUndoes.rounds {c : Config} {tbl : Memory} {b b' : Dir} (h : RoundUndoes c tbl b b') (r d e : Nat)
    {v : List Word} (hv : v.length = c.n) : roundsOf b' c tbl r e (roundsOf b c tbl r d v) = v := by
  induction r generalizing d v with
  | zero => rw [roundsOf_zero, roundsOf_zero]
  | succ r ih => rw [roundsOf_succ b, roundsOf_succ_last b', ih _ (roundOf_length b c tbl d v), h d _ v hv]

theorem RoundUndoes.run {s : State} {b b' : Dir} (h : RoundUndoes s.cfg s.tbl b b') {r : Nat} (hr : r ≤ 65535)
    (idle : s.eng = .idle) (hlen : s.st.length = s.n) :
    ∃ t u, exec (runOf b r).toInstr s = .next t ∧ exec (runOf b' r).toInstr t = .next u ∧ u.st = s.st ∧
      u.rcnt.toNat = r := by
  obtain ⟨_, there⟩ := exec_runOf (b := b) (r := r) (.inl idle)
  obtain ⟨_, back⟩ := exec_runOf (b := b') (r := r) (s := s.ran b r _) (.inl rfl)
  exact ⟨_, _, there, back, h.rounds r _ _ hlen, rcnt_toNat_of_le hr⟩

/-- Bank `b'` maps every entry of bank `b` back to its index (R75). -/
def BankUndoes (n : Nat) (tbl : Memory) (b b' : Dir) : Prop :=
  ∀ j, j < n → ∀ w, ∃ y, tbl.read (entryAddr b j w) = some y ∧ tbl.read (entryAddr b' j y) = some w

/-- Diffusion is undone first, being the outer layer of RoundF, then confusion. -/
theorem roundUndoes_forward {c : Config} {tbl : Memory} (tables : BankUndoes c.n tbl .forward .inverse)
    (matrices : ∀ v, v.length = c.n → mixVec c.n c.matI (mixVec c.n c.matF v) = v) :
    RoundUndoes c tbl .forward .inverse := by
  intro d e v hv
  show subVec tbl c.n .inverse e (mixVec c.n c.matI (mixVec c.n c.matF (subVec tbl c.n .forward d v))) = v
  rw [matrices _ (subVec_length _ _ _ _ _), subVec_subVec_of_inverse d e hv tables]

/-- Confusion is undone first, being the outer layer of RoundI, then diffusion. -/
theorem roundUndoes_inverse {c : Config} {tbl : Memory} (tables : BankUndoes c.n tbl .inverse .forward)
    (matrices : ∀ v, v.length = c.n → mixVec c.n c.matF (mixVec c.n c.matI v) = v) :
    RoundUndoes c tbl .inverse .forward := by
  intro d e v hv
  show mixVec c.n c.matF (subVec tbl c.n .forward e (subVec tbl c.n .inverse d (mixVec c.n c.matI v))) = v
  rw [subVec_subVec_of_inverse d e (mixVec_length _ _ _) tables, matrices v hv]

/-- Settles O48: MATI undoes MATF on either side, so a round undoes the other where the tables do. -/
theorem decryptionUndoesEncryption : Obligations.DecryptionUndoesEncryption := by
  intro s r hr idle hlen product
  obtain ⟨_, matrices⟩ := inverseMatrixUndoesDiffusion s.n s.cfg.matF s.cfg.matI (Config.n_le s.cfg) product
  refine ⟨fun tables => ?_, fun tables => ?_⟩
  · have undoes : RoundUndoes s.cfg s.tbl .forward .inverse :=
      roundUndoes_forward tables fun v hv => (matrices v hv).1
    exact ⟨undoes, undoes.run hr idle hlen⟩
  · have undoes : RoundUndoes s.cfg s.tbl .inverse .forward :=
      roundUndoes_inverse tables fun v hv => (matrices v hv).2
    exact undoes.run hr idle hlen

end Sys2Proof.Machine
end


-- ==== Sys2Proof/Proofs/Exceptions.lean ====
section
/-! PROOFS. The error record and the interrupt level: a refused instruction has no other effect and the first error is
kept (R102), the priority of the causes (R103), `irq` (R104). -/

namespace Sys2Proof

theorem Command.toInstr_ne_rd (c : Command) (a : RegAddr) : c.toInstr ≠ .rd a := by cases c <;> nofun

end Sys2Proof

namespace Sys2Proof.Machine

/-! ### What an instruction does to the error record (R102) -/

/-- `t` is `s` with an error raised by `i` and nothing else done; a read returns 0. -/
def State.RefusedAs (i : Instr) (s t : State) : Prop :=
  ∃ code v, code ≠ .none ∧ t = (s.raise code).answer v ∧ ((∃ a, i = .rd a) → v = 0) ∧
    ((∀ a, i ≠ .rd a) → v = s.rdata)

theorem State.RefusedAs.read {code : ErrCode} (real : code ≠ .none) (a : RegAddr) (s : State) :
    s.RefusedAs (.rd a) ((s.raise code).answer 0) :=
  ⟨code, 0, real, rfl, fun _ => rfl, fun other => absurd rfl (other a)⟩

theorem State.RefusedAs.other {i : Instr} {code : ErrCode} (real : code ≠ .none) (noRead : ∀ a, i ≠ .rd a)
    (s : State) : s.RefusedAs i (s.raise code).acked :=
  ⟨code, s.rdata, real, rfl, fun ⟨a, read⟩ => absurd read (noRead a), fun _ => rfl⟩

/-- The ways an instruction can treat the error record. -/
inductive State.ErrorUpdate (i : Instr) (s t : State) : Prop where
  | kept (err : t.err = s.err) (errCode : t.errCode = s.errCode)
  | refused (refusal : s.RefusedAs i t)
  | acknowledged (v : BusWord) (write : i = .wr 0x02 v) (result : t = (s.writeStatus v).acked)

/-- A write rule keeps the error record, or raises an error and does nothing else. -/
def State.KeepsErrorOrRaises (s t : State) : Prop :=
  (t.err = s.err ∧ t.errCode = s.errCode) ∨ ∃ code, code ≠ .none ∧ t = s.raise code

theorem State.KeepsErrorOrRaises.raise {code : ErrCode} (real : code ≠ .none) (s : State) :
    s.KeepsErrorOrRaises (s.raise code) := .inr ⟨code, real, rfl⟩

theorem State.KeepsErrorOrRaises.acked {s t : State} (h : s.KeepsErrorOrRaises t) (a : RegAddr) (v : BusWord) :
    State.ErrorUpdate (.wr a v) s t.acked := by
  rcases h with ⟨err, errCode⟩ | ⟨code, real, rfl⟩
  · exact .kept err errCode
  · exact .refused (.other real (fun _ => by nofun) s)

theorem State.writeCmd_error (v : BusWord) (s : State) : s.KeepsErrorOrRaises (s.writeCmd v) := by
  unfold State.writeCmd
  split
  · exact .raise (by decide) s
  · split
    · exact .raise (by decide) s
    · exact .inl ⟨rfl, rfl⟩

theorem State.writeTsel_error (v : BusWord) (s : State) : s.KeepsErrorOrRaises (s.writeTsel v) := by
  unfold State.writeTsel
  split
  · exact .raise (by decide) s
  · exact .inl ⟨rfl, rfl⟩

theorem State.writeTdata_error (v : BusWord) (s : State) : s.KeepsErrorOrRaises (s.writeTdata v) := by
  unfold State.writeTdata
  split
  · exact .raise (by decide) s
  · split
    · exact .raise (by decide) s
    · exact .inl ⟨rfl, rfl⟩

theorem State.writeSt_error (j : Nat) (v : BusWord) (s : State) : s.KeepsErrorOrRaises (s.writeSt j v) := by
  unfold State.writeSt
  split
  · exact .raise (by decide) s
  · exact .inl ⟨rfl, rfl⟩

theorem State.readTdata_error (s : State) : State.ErrorUpdate (.rd 0x05) s s.readTdata := by
  unfold State.readTdata
  split
  · exact .refused (.read (by decide) _ s)
  · split
    · exact .refused (.read (by decide) _ s)
    · exact .kept rfl rfl

theorem execRd_error {a : RegAddr} {s t : State} (h : execRd a s = .next t) : State.ErrorUpdate (.rd a) s t := by
  by_cases ha : a = 0x05
  · subst ha
    cases h
    exact s.readTdata_error
  · obtain ⟨v, d, answer⟩ := execRd_frame ha s
    cases answer.symm.trans h
    exact .kept rfl rfl

theorem execWr_error {a : RegAddr} {v : BusWord} {s t : State} (h : execWr a v s = .next t) :
    State.ErrorUpdate (.wr a v) s t := by
  unfold execWr at h
  generalize hr : regAt s.n a = r at h
  cases r <;> cases h
  case ctrl => exact .kept rfl rfl
  case status => exact .acknowledged v (by rw [regAt_status_iff.1 hr]) rfl
  case cmd => exact (s.writeCmd_error v).acked a v
  case tsel => exact (s.writeTsel_error v).acked a v
  case tdata => exact (s.writeTdata_error v).acked a v
  case st j => exact (s.writeSt_error j v).acked a v
  all_goals exact State.KeepsErrorOrRaises.acked (.raise (by decide) s) a v

theorem exec_command_error {c : Command} {s t : State} (h : exec c.toInstr s = .next t) :
    State.ErrorUpdate c.toInstr s t := by
  rw [exec_toInstr] at h
  rcases State.command_cases h with ⟨_, rfl⟩ | ⟨_, _, _, rfl⟩ | ⟨_, _, _, _, _, rfl⟩
  · exact .kept (by simp [effectOf_frame]) (by simp [effectOf_frame])
  · exact .kept (by simp [effectOf_frame]) (by simp [effectOf_frame])
  · exact .refused (.other (by decide) c.toInstr_ne_rd s)

theorem exec_error {i : Instr} {s t : State} (h : exec i s = .next t) : State.ErrorUpdate i s t := by
  rcases i.command_or_access with ⟨c, rfl⟩ | ⟨a, rfl⟩ | ⟨a, v, rfl⟩
  · exact exec_command_error h
  · exact execRd_error h
  · exact execWr_error h

/-- Settles O23: only a refusal sets ERR, only an acknowledgement clears it, and a refusal keeps an earlier error. -/
theorem refusedTransactionHasNoOtherEffect : Obligations.RefusedTransactionHasNoOtherEffect := by
  intro i s t h
  rcases exec_error h with ⟨err, errCode⟩ | ⟨code, v, real, rfl, ofRead, ofOther⟩ | ⟨v, rfl, rfl⟩
  · exact ⟨fun before after => absurd (err.symm.trans after) (by simp [before]),
      fun before _ => ⟨err.trans before, errCode⟩⟩
  · refine ⟨fun before _ => ⟨v, rfl, ?_, ofRead, ofOther⟩, fun before _ => ?_⟩
    · rwa [State.raise_of_no_err code before]
    · rw [State.raise_of_err code before]
      exact ⟨before, rfl⟩
  · exact ⟨fun before after => absurd after (by simp [State.writeStatus, before]),
      fun _ noStatusWrite => absurd rfl (noStatusWrite v)⟩

/-! ### The priority of the causes (R103) -/

/-- Settles O24: the refusals of the register port, each of which records its code as the first error. -/
theorem errorPriority : Obligations.ErrorPriority := by
  intro s v a busy noErr
  have recorded (code : ErrCode) : (if s.err then s.errCode else code) = code := by simp [noErr]
  refine ⟨fun noSlot => ?_, fun window noWord => ?_, ?_⟩
  · exact ⟨_, _, (tableDataRead s).1 noSlot, recorded _, (tableDataWrite s v).1 noSlot, recorded _⟩
  · have reserved := reservedAndReadOnlyWritesAreErrors s a v (by simp only [window, noWord, and_self, or_true])
    exact ⟨_, reserved, recorded _⟩
  · exact ⟨_, (commandAcceptance s v).1 busy, recorded _⟩

/-! ### The interrupt output (R104) -/

theorem State.irq_iff {s : State} :
    s.irq = true ↔ (s.ieDone = true ∧ s.done = true) ∨ (s.ieErr = true ∧ s.err = true) := by
  simp [State.irq]

/-- With no flag up, `irq` is low whatever the enables are. -/
theorem State.irq_of_no_flag {s : State} (noDone : s.done = false) (noErr : s.err = false) : s.irq = false := by
  simp [State.irq, noDone, noErr]

/-- Settles O25: the level in each of the states, from its flags and enables there. -/
theorem interruptLevel : Obligations.InterruptLevel := by
  refine ⟨rfl, fun s => ⟨State.irq_iff, fun v => ?_, fun v ackDone ackErr => ?_, fun c hc idle noErr => ?_,
    fun c k p running enabled => ?_⟩⟩
  · exact ⟨(s.writeCtrl v).acked, rfl, rfl, rfl, rfl⟩
  · exact ⟨_, exec_wr_status v s, State.irq_of_no_flag (by simp [State.writeStatus, ackDone])
      (by simp [State.writeStatus, ackErr])⟩
  · refine ⟨(s.accept c).acked, ?_, State.irq_of_no_flag rfl noErr, rfl⟩
    rw [exec_wr_cmd, State.writeCmd_of_ok (decodeCommand_encodeCommand hc) idle]
  · exact ⟨_, exec_running running, State.irq_iff.2 (.inl ⟨by simp [effectOf_frame, enabled], rfl⟩)⟩

end Sys2Proof.Machine
end

