-- ==== Sys2Proof/Proofs/ResetAndHazards.lean ====
section
/-! PROOFS. What a Busy engine refuses and what it does as an Idle one (R117, R118), the reset edge (R114), and the
steps between power-up and the first reset (R115). -/

namespace Sys2Proof.Machine

/-! ### What a Busy engine refuses (R117) -/

/-- Settles O26: the Busy clause of each register's write rule, and of the TDATA read. -/
theorem busyEngineRefuses : Obligations.BusyEngineRefuses := by
  refine fun s v j busy hj => ⟨(commandAcceptance s v).1 busy, ?_, (tableSelectWrite s v).2 busy,
    fun slot => (tableDataWrite s v).2.1 slot busy, fun slot => (tableDataRead s).2.1 slot busy⟩
  rw [exec_wr_st hj, State.writeSt_of_busy (State.isBusy_of_not_idle busy)]
  rfl

/-! ### What it does as an Idle one (R118) -/

/-- The same state with the engine Idle: the other fields stand, so this is no completion. -/
def State.idled (s : State) : State := { s with eng := .idle }

/-- The word addresses of the state words that exist (R22). -/
def InStateWindow (n : Nat) (a : RegAddr) : Prop := 16 ≤ a.toNat ∧ a.toNat < 16 + n

theorem inStateWindow_of_regAt_st {n j : Nat} {a : RegAddr} (hn : n ≤ 16) (h : regAt n a = .st j) :
    InStateWindow n a := by
  obtain ⟨hj, rfl⟩ := regAt_st_lt h
  rw [InStateWindow, BitVec.toNat_ofNat, Nat.mod_eq_of_lt (by omega)]
  omega

section
variable {s t : State} {a : RegAddr} (tdata : a ≠ 0x05) (window : ¬ InStateWindow s.n a)
include tdata window

/-- The other read rules do not look at the engine control state. -/
theorem execRd_idled (status : a ≠ 0x02) (h : execRd a s = .next t) : execRd a s.idled = .next t.idled := by
  have hn : s.idled.n = s.n := rfl
  unfold execRd at h ⊢
  rw [hn]
  generalize hr : regAt s.n a = r at h ⊢
  cases r <;> cases h
  case status => exact absurd (regAt_status_iff.1 hr) status
  case tdata => exact absurd (regAt_tdata_iff.1 hr) tdata
  case st j => exact absurd (inStateWindow_of_regAt_st (Config.n_le s.cfg) hr) window
  all_goals rfl

/-- Nor do the other write rules, the refusals with BADADDR among them. -/
theorem execWr_idled {v : BusWord} (cmd : a ≠ 0x03) (tsel : a ≠ 0x04) (h : execWr a v s = .next t) :
    execWr a v s.idled = .next t.idled := by
  have hn : s.idled.n = s.n := rfl
  unfold execWr at h ⊢
  rw [hn]
  generalize hr : regAt s.n a = r at h ⊢
  cases r <;> cases h
  case cmd => exact absurd (regAt_cmd_iff.1 hr) cmd
  case tsel => exact absurd (regAt_tsel_iff.1 hr) tsel
  case tdata => exact absurd (regAt_tdata_iff.1 hr) tdata
  case st j => exact absurd (inStateWindow_of_regAt_st (Config.n_le s.cfg) hr) window
  all_goals rfl

end

/-- Settles O27: the access answers some next state, and the rule that answers it does not see the engine. -/
theorem otherAccessesDoNotSeeBusy : Obligations.OtherAccessesDoNotSeeBusy := by
  refine fun s a v => ⟨fun status tdata window => ?_, fun cmd tsel tdata window => ?_⟩
  · obtain ⟨t, answers⟩ := execRd_next a s
    exact ⟨t, answers, execRd_idled tdata window status answers⟩
  · obtain ⟨t, answers⟩ := execWr_next a v s
    exact ⟨t, answers, execWr_idled tdata window cmd tsel answers⟩

/-! ### Steps before the first reset (R115) -/

theorem step_event_before_reset {s : State} {e : Event} {rest : List Event} (hr : s.resetDone = false)
    (he : s.events = e :: rest) : step s = onEventBeforeReset e (s.popEvent rest) := by
  simp only [step, he, hr]

theorem step_no_event_before_reset {s : State} (hr : s.resetDone = false) (he : s.events = []) :
    step s = .fault .behaviourBeforeReset := by
  simp only [step, he, hr]

/-- An event that does the same before and after the first reset does it in every state. -/
theorem step_event_always {s : State} {e : Event} {rest : List Event}
    (same : onEventBeforeReset e (s.popEvent rest) = onEvent e (s.popEvent rest)) (he : s.events = e :: rest) :
    step s = onEvent e (s.popEvent rest) := by
  cases hr : s.resetDone with
  | false => rw [step_event_before_reset hr he, same]
  | true => exact step_event hr he

/-- Settles O51: the edge is taken in every state, and its fields are those of the rule's table. -/
theorem resetEdge : Obligations.ResetEdge := by
  intro s rest he
  have idle : (s.popEvent rest).resetEdge.isBusy = false := State.isBusy_of_idle rfl
  have low : (s.popEvent rest).resetEdge.irq = false := State.irq_of_no_flag rfl rfl
  exact ⟨_, step_event_always rfl he, by simp [idle, low]⟩

/-- Settles O52: power-up and the narrow access do the same in every state; the other events stop by name. -/
theorem nothingRunsBeforeReset : Obligations.NothingRunsBeforeReset := by
  refine fun s rest => ⟨⟨_, step_event_always (e := .powerUp) rfl rfl, rfl, fun _ => rfl⟩,
    fun o n => step_event_always (e := .narrow o n) rfl rfl, fun notReset => ?_⟩
  have placed (es : List Event) : ({ s with events := es } : State).resetDone = false := notReset
  exact ⟨fun w => step_event_before_reset (e := .txn w) (placed _) rfl,
    step_event_before_reset (e := .complete) (placed _) rfl,
    step_event_before_reset (e := .advance) (placed _) rfl, step_no_event_before_reset (placed _) rfl⟩

end Sys2Proof.Machine
end
